-- ==== Sys2Proof/Word.lean ====
section
/-! DEFINITION. The value types of the engine: the 32-bit interface word, the bit sequences the
source calls BitVectors, texts, and the two ways a computation can stop. -/

namespace Sys2Proof

/-- The request word `REQ` and the response word `RSP`: 32 bits, bit 0 the least significant
(`00_scope.md` R7, `30_encoding.md` R60, R66). -/
abbrev Word := BitVec 32

/-- The source's BitVector (`00_scope.md` R6): an ordered sequence of single bits.  Element 0 is the
first element and the most significant bit of the integer value.  The length is not in the type: the
utilities of `40_bitvector.md` say what happens on each length, and the lengths inside the engine are
a theorem about it (`60_exceptions.md` R176). -/
abbrev BitVector := List Bool

/-- A text at the boundary: a finite sequence of characters (`40_bitvector.md` R90). -/
abbrev Text := List Char

/-- The error kinds (`60_exceptions.md` R170). -/
inductive ErrorKind where
  /-- A non-binary character or a wrong-length text; raised by the text front end (R171). -/
  | invalidInput
  /-- Raised by `xor` and `split`; no request reaches it (R176). -/
  | lengthMismatch
  /-- Raised by the decoder and by the text front end (R172). -/
  | unknownMode
  /-- Raised by `fromInteger`; no request reaches it (R177). -/
  | overflow
  /-- Raised by the decoder (R174). -/
  | illegalRequest
  deriving DecidableEq, Repr

/-- Why a computation has no result. -/
inductive Stop where
  /-- `raise <Kind>(info)` of `00_scope.md` R8: the operation's result is the error.  `info` is the
  diagnostic that no rule reads (R170); only `parse` gives one, the offending position (R90). -/
  | raise (kind : ErrorKind) (info : Option Nat)
  /-- A gather or an S-box lookup met an index outside its operand: the precondition of
  `40_bitvector.md` R92, treated as `93_implementation_defined.md` U2 says (refuse). -/
  | badIndex
  deriving DecidableEq, Repr

end Sys2Proof
end

