-- ==== Sys2Proof/Machine/BitVector.lean ====
section
/-! DEFINITION. The eight BitVector utilities (`40_bitvector.md` R90 to R97) and the text form of a
result (`30_encoding.md` R76). -/

namespace Sys2Proof.Machine

/-- A BitVector literal, element 0 leftmost (`00_scope.md` R6). -/
def bits (literal : String) : BitVector := literal.toList.map fun c => c == '1'

/-- `parse` from position `i` on: `i` is the position an InvalidInput reports. -/
def parseFrom (i : Nat) : Text → Except Stop BitVector
  | [] => .ok []
  | c :: rest =>
    if c = '0' then do
      let v ← parseFrom (i + 1) rest
      return false :: v
    else if c = '1' then do
      let v ← parseFrom (i + 1) rest
      return true :: v
    else .error (.raise .invalidInput (some i))

/-- `parse(text)` (R90): character `i` becomes element `i`; InvalidInput at the first character that
is neither `0` nor `1`. -/
def parse (text : Text) : Except Stop BitVector := parseFrom 0 text

/-- `xor(a, b)` (R91): element by element; LengthMismatch when the lengths differ. -/
def xorBits (a b : BitVector) : Except Stop BitVector :=
  if a.length = b.length then .ok (List.zipWith Bool.xor a b)
  else .error (.raise .lengthMismatch none)

/-- `permute(v, indices)` (R92): a gather, `result[i] = v[indices[i]]`.  "Requires every value in
`indices` be a valid index into `v`": otherwise `badIndex`. -/
def permute (v : BitVector) : List Nat → Except Stop BitVector
  | [] => .ok []
  | i :: rest =>
    match v[i]? with
    | none => .error .badIndex
    | some b => do
      let r ← permute v rest
      return b :: r

/-- `split(v)` (R93): the first half, then the second; LengthMismatch for an odd length. -/
def split (v : BitVector) : Except Stop (BitVector × BitVector) :=
  if v.length % 2 = 0 then .ok (v.take (v.length / 2), v.drop (v.length / 2))
  else .error (.raise .lengthMismatch none)

/-- `merge(a, b)` (R94): concatenation, `a` first. -/
def merge (a b : BitVector) : BitVector := a ++ b

/-- `rotateLeft(v, n)` (R95): each element moves `n mod len(v)` places toward element 0, the
remainder taken non-negative (`92_eei_decisions.md` D13); what leaves the front re-enters at the back
in order.  On the empty vector, outside the function's domain (`93_implementation_defined.md` U4), it
is the empty vector. -/
def rotateLeft (v : BitVector) (n : Int) : BitVector :=
  v.drop (n % v.length).toNat ++ v.take (n % v.length).toNat

/-- `toInteger(v)` (R96): big-endian, element 0 the most significant. -/
def toInteger (v : BitVector) : Nat := v.foldl (fun r b => 2 * r + b.toNat) 0

/-- `fromInteger(n, width)` (R97): zeros in front; Overflow when `n` does not fit. -/
def fromInteger (n width : Nat) : Except Stop BitVector :=
  if n < 2 ^ width then .ok ((List.range width).map fun i => (n >>> (width - 1 - i)) % 2 == 1)
  else .error (.raise .overflow none)

/-- The text form of a result (`30_encoding.md` R76): the inverse of `parse`. -/
def toText (v : BitVector) : Text := v.map fun b => if b then '1' else '0'

end Sys2Proof.Machine
end

