-- ==== Sys2Proof/Machine/Operands.lean ====
section
/-! DEFINITION. Operand assembly (`30_encoding.md` R60 to R64, R67): word fields, the BitVector each
operand field yields, and the value each operand puts in its field. -/

namespace Sys2Proof.Machine

/-- `W[hi:lo]` (`00_scope.md` R7). -/
def field (w : Word) (hi lo : Nat) : Nat := (w.toNat >>> lo) % 2 ^ (hi - lo + 1)

/-- `REQ[31:30]` (R60). -/
def opField (req : Word) : Nat := field req 31 30

/-- `REQ[29:28]` (R60, R64). -/
def modeField (req : Word) : Nat := field req 29 28

/-- The reserved bits of format K below the key field (R61).  The two above it are `modeField`. -/
def reservedK (req : Word) : Nat := field req 17 0

/-- The reserved bits of format C (R62). -/
def reservedC (req : Word) : Nat := field req 3 0

/-- The reserved bits of format B (R63). -/
def reservedB (req : Word) : Nat := field req 9 0

/-- The master key of formats K and B: `fromInteger(REQ[27:18], 10)` (R67). -/
def keyOperand (req : Word) : Except Stop BitVector := fromInteger (field req 27 18) 10

/-- The pair's first key in format C: `fromInteger(REQ[27:20], 8)` (R67). -/
def key1Operand (req : Word) : Except Stop BitVector := fromInteger (field req 27 20) 8

/-- The pair's second key in format C: `fromInteger(REQ[19:12], 8)` (R67). -/
def key2Operand (req : Word) : Except Stop BitVector := fromInteger (field req 19 12) 8

/-- The block of format C: `fromInteger(REQ[11:4], 8)` (R67). -/
def blockOperandC (req : Word) : Except Stop BitVector := fromInteger (field req 11 4) 8

/-- The block of format B: `fromInteger(REQ[17:10], 8)` (R67). -/
def blockOperandB (req : Word) : Except Stop BitVector := fromInteger (field req 17 10) 8

/-- A format K request word (R61). -/
def wordK (key : BitVector) : Word :=
  BitVec.ofNat 32 ((1 <<< 30) ||| (toInteger key <<< 18))

/-- A format C request word with mode field `m` (R62). -/
def wordC (m : Nat) (key1 key2 block : BitVector) : Word :=
  BitVec.ofNat 32 ((2 <<< 30) ||| (m <<< 28) ||| (toInteger key1 <<< 20) ||| (toInteger key2 <<< 12)
    ||| (toInteger block <<< 4))

/-- A format B request word with mode field `m` (R63, `44_commands.md` R157). -/
def wordB (m : Nat) (key block : BitVector) : Word :=
  BitVec.ofNat 32 ((3 <<< 30) ||| (m <<< 28) ||| (toInteger key <<< 18) ||| (toInteger block <<< 10))

end Sys2Proof.Machine
end

