-- ==== Sys2Proof/Config.lean ====
section
/-! DEFINITION. The parameters of the engine (`00_scope.md` R5): the widths the source fixes, the type
of the parameter `TABLES`, and the two open parameters that no rule reads. -/

namespace Sys2Proof

/-- The parameter `TABLES` (`00_scope.md` R5, `10_state.md` R11): the contents of six index vectors and
two S-boxes, as raw numbers.  `Machine.tablesWellFormed` says which contents make an engine. -/
structure Tables where
  ipVector : List Nat
  ipInverseVector : List Nat
  p10Vector : List Nat
  p8Vector : List Nat
  epVector : List Nat
  p4Vector : List Nat
  s0 : List (List Nat)
  s1 : List (List Nat)
  deriving DecidableEq, Repr

/-- The names of the eight index vectors of the table ROM (`20_memory.md` R30). -/
inductive VectorName where
  | ip | ipInverse | p10 | p8 | ep | p4 | outer | inner
  deriving DecidableEq, Repr

/-- The names of the two S-boxes of the table ROM (`20_memory.md` R30). -/
inductive SboxName where
  | s0 | s1
  deriving DecidableEq, Repr

namespace Config

/-- `BLOCK_BITS` (R5). -/
abbrev blockBits : Nat := 8
/-- `KEY_BITS` (R5). -/
abbrev keyBits : Nat := 10
/-- `SUBKEY_BITS` (R5). -/
abbrev subkeyBits : Nat := 8
/-- `HALF_BITS` (R5, `90_conflicts.md` C6). -/
abbrev halfBits : Nat := 4
/-- `KEY_HALF_BITS` (R5, `90_conflicts.md` C6). -/
abbrev keyHalfBits : Nat := 5
/-- `SBOX_IN_BITS` (R5). -/
abbrev sboxInBits : Nat := 4
/-- `SBOX_OUT_BITS` (R5). -/
abbrev sboxOutBits : Nat := 2
/-- `SBOX_ROWS` and `SBOX_COLS` (R5). -/
abbrev sboxSide : Nat := 4

/-- `LATENCY` (R5, `70_reset_and_hazards.md` R198): an open, finite number that no rule reads. -/
opaque latency : Nat

/-- The number of engine instances beyond the first: an open number. -/
opaque moreEngines : Nat

/-- `NUM_ENGINES` (R5, `10_state.md` R20): open, at least 1. -/
def numEngines : Nat := moreEngines + 1

end Config

end Sys2Proof
end

