-- ==== Sys2Proof/Syntax.lean ====
section
/-! DEFINITION. The five operations of the engine, as syntax (`44_commands.md` R150 to R154). -/

namespace Sys2Proof

/-- The mode, "one of {encrypt, decrypt}, selecting which round key is applied first"
(`10_state.md` R17).  An operand, not state. -/
inductive Mode where
  | encrypt
  | decrypt
  deriving DecidableEq, Repr

/-- The rows of the opcode map (`30_encoding.md` R68). -/
inductive Opcode where
  | keygen | cipherE | cipherD | encrypt | decrypt
  deriving DecidableEq, Repr

/-- An operation with its operands.  The operands are BitVectors of any length; `Instr.wf` is the
length each must have, which every operand field of a request word has by construction
(`10_state.md` R21). -/
inductive Instr where
  /-- KEYGEN: the master key (R150). -/
  | keygen (key : BitVector)
  /-- CIPHER.E: the pair's first key, its second key, the block (R151). -/
  | cipherE (key1 key2 block : BitVector)
  /-- CIPHER.D: operands as CIPHER.E, in the same order (R152). -/
  | cipherD (key1 key2 block : BitVector)
  /-- ENCRYPT: the master key, the block (R153). -/
  | encrypt (key block : BitVector)
  /-- DECRYPT: the master key, the block (R154). -/
  | decrypt (key block : BitVector)
  deriving DecidableEq, Repr

/-- The row of the opcode map an operation belongs to. -/
def Instr.opcode : Instr → Opcode
  | .keygen _ => .keygen
  | .cipherE _ _ _ => .cipherE
  | .cipherD _ _ _ => .cipherD
  | .encrypt _ _ => .encrypt
  | .decrypt _ _ => .decrypt

end Sys2Proof
end

