-- ==== Sys2Proof/WellFormed.lean ====
section
/-! DEFINITION. The length each operand must have (`10_state.md` R21: "length must match the operation's
expected arity"; 10 for a master key, 8 for a round key or a block). -/

namespace Sys2Proof

/-- A master key: `KEY_BITS` bits. -/
def isKey (v : BitVector) : Bool := v.length == Config.keyBits

/-- A round key: `SUBKEY_BITS` bits. -/
def isSubkey (v : BitVector) : Bool := v.length == Config.subkeyBits

/-- A block: `BLOCK_BITS` bits. -/
def isBlock (v : BitVector) : Bool := v.length == Config.blockBits

/-- An operation "with operands of the right lengths" (`30_encoding.md` R70). -/
def Instr.wf : Instr → Bool
  | .keygen key => isKey key
  | .cipherE key1 key2 block => isSubkey key1 && isSubkey key2 && isBlock block
  | .cipherD key1 key2 block => isSubkey key1 && isSubkey key2 && isBlock block
  | .encrypt key block => isKey key && isBlock block
  | .decrypt key block => isKey key && isBlock block

end Sys2Proof
end

