-- ==== Sys2Proof/Decode.lean ====
section
/-! DEFINITION. The decoder, total on 32-bit words, the opcode map as masks and patterns, and the
encoder (`30_encoding.md` R68 to R70). -/

namespace Sys2Proof

open Machine

/-- `Decode(REQ)` (R70).  An error is IllegalRequest or UnknownMode; a reserved bit is reported before
an unknown mode (`60_exceptions.md` R175). -/
def decode (req : Word) : Except Stop Instr :=
  if opField req = 0 then .error (.raise .illegalRequest none)
  else if opField req = 1 then
    if modeField req ≠ 0 ∨ reservedK req ≠ 0 then .error (.raise .illegalRequest none)
    else do
      let key ← keyOperand req
      return .keygen key
  else if opField req = 2 then
    if reservedC req ≠ 0 then .error (.raise .illegalRequest none)
    else if 2 ≤ modeField req then .error (.raise .unknownMode none)
    else do
      let key1 ← key1Operand req
      let key2 ← key2Operand req
      let block ← blockOperandC req
      return if modeField req = 0 then .cipherE key1 key2 block else .cipherD key1 key2 block
  else
    if reservedB req ≠ 0 then .error (.raise .illegalRequest none)
    else if 2 ≤ modeField req then .error (.raise .unknownMode none)
    else do
      let key ← keyOperand req
      let block ← blockOperandB req
      return if modeField req = 0 then .encrypt key block else .decrypt key block

/-- The mask of a row of the opcode map (R68). -/
def opcodeMask : Opcode → Word
  | .keygen => 0xF003FFFF#32
  | .cipherE => 0xF000000F#32
  | .cipherD => 0xF000000F#32
  | .encrypt => 0xF00003FF#32
  | .decrypt => 0xF00003FF#32

/-- The pattern of a row of the opcode map, the table's `match` (R68). -/
def opcodePattern : Opcode → Word
  | .keygen => 0x40000000#32
  | .cipherE => 0x80000000#32
  | .cipherD => 0x90000000#32
  | .encrypt => 0xC0000000#32
  | .decrypt => 0xD0000000#32

/-- "A request selects the row when `REQ & mask = match`" (R68). -/
def selects (row : Opcode) (req : Word) : Bool := req &&& opcodeMask row == opcodePattern row

/-- `Encode` (R70): the request word of an operation, its operands in the fields of R61 to R63. -/
def encode : Instr → Word
  | .keygen key => wordK key
  | .cipherE key1 key2 block => wordC 0 key1 key2 block
  | .cipherD key1 key2 block => wordC 1 key1 key2 block
  | .encrypt key block => wordB 0 key block
  | .decrypt key block => wordB 1 key block

/-- The word an opcode-table row stands for: `nbits` bits, the bits above them zero (R60: every request
is exactly 32 bits). -/
def tableWord (nbits w : Nat) : Word := BitVec.ofNat 32 (w % 2 ^ nbits)

/-- What the decoder reads from a word numbered as the opcode table numbers it. -/
def decodeTableWord (nbits w : Nat) : Option Instr :=
  match decode (tableWord nbits w) with
  | .ok i => some i
  | .error _ => none

end Sys2Proof
end

