-- ==== Sys2Proof/Machine/Rom.lean ====
section
/-! DEFINITION. The table ROM (`20_memory.md`): reads by table name and entry, the default contents,
and the well-formedness of its contents. -/

namespace Sys2Proof.Machine

/-- `OUTER_VECTOR` (R39, order by `92_eei_decisions.md` D2). -/
def outerVector : List Nat := [0, 3]

/-- `INNER_VECTOR` (R39, order by `92_eei_decisions.md` D2). -/
def innerVector : List Nat := [1, 2]

/-- The contents of an index vector of the ROM (R30). -/
def romVector (t : Tables) : VectorName → List Nat
  | .ip => t.ipVector
  | .ipInverse => t.ipInverseVector
  | .p10 => t.p10Vector
  | .p8 => t.p8Vector
  | .ep => t.epVector
  | .p4 => t.p4Vector
  | .outer => outerVector
  | .inner => innerVector

/-- The contents of an S-box of the ROM (R30). -/
def romSbox (t : Tables) : SboxName → List (List Nat)
  | .s0 => t.s0
  | .s1 => t.s1

/-- `ROM.T[i]` (R31): entry `i` of an index vector, if there is one. -/
def romVectorEntry (t : Tables) (name : VectorName) (i : Nat) : Option Nat := (romVector t name)[i]?

/-- `ROM.S[row][col]` (R32): the row is the first index, the column the second. -/
def romSboxEntry (t : Tables) (name : SboxName) (row col : Nat) : Option Nat :=
  (romSbox t name)[row]?.bind fun r => r[col]?

/-- The default contents of `TABLES` (R41, `92_eei_decisions.md` D1).  PRESUMED: the published S-DES
tables; the source gives none (log 2). -/
def defaultTables : Tables where
  p10Vector := [2, 4, 1, 6, 3, 9, 0, 8, 7, 5]
  p8Vector := [5, 2, 6, 3, 7, 4, 9, 8]
  ipVector := [1, 5, 2, 0, 3, 7, 4, 6]
  ipInverseVector := [3, 0, 2, 4, 6, 1, 7, 5]
  epVector := [3, 0, 1, 2, 1, 2, 3, 0]
  p4Vector := [1, 3, 2, 0]
  s0 := [[1, 0, 3, 2], [3, 2, 1, 0], [0, 2, 1, 3], [3, 1, 3, 2]]
  s1 := [[0, 1, 2, 3], [2, 0, 1, 3], [3, 0, 1, 0], [2, 1, 0, 3]]

/-- An index vector: `n` entries, each an index below `bound`. -/
def indexVector (n bound : Nat) (v : List Nat) : Bool := v.length == n && v.all fun x => x < bound

/-- A permutation of `0..n-1`: `n` entries below `n`, all different. -/
def permutationVector (n : Nat) (v : List Nat) : Bool := indexVector n n v && decide v.Nodup

/-- `IP_VECTOR[IP_INVERSE_VECTOR[i]] = i` and `IP_INVERSE_VECTOR[IP_VECTOR[i]] = i` for `i` in 0..7
(R36). -/
def mutuallyInverse (ip ipInv : List Nat) : Bool :=
  (List.range 8).all fun i =>
    ipInv[i]?.bind (fun j => ip[j]?) == some i && ip[i]?.bind (fun j => ipInv[j]?) == some i

/-- An S-box: 4 rows of 4 entries, every entry in 0..3 (R40). -/
def sboxShape (b : List (List Nat)) : Bool :=
  b.length == Config.sboxSide && b.all fun row => row.length == Config.sboxSide && row.all fun x => x < 2 ^ Config.sboxOutBits

/-- `TablesWellFormed(TABLES)` (R42): the conjunction of R33, R34, R35, R36, R37, R38 and R40. -/
def tablesWellFormed (t : Tables) : Bool :=
  permutationVector 10 t.p10Vector
    && (indexVector 8 10 t.p8Vector && decide t.p8Vector.Nodup)
    && permutationVector 8 t.ipVector
    && (permutationVector 8 t.ipInverseVector && mutuallyInverse t.ipVector t.ipInverseVector)
    && indexVector 8 4 t.epVector
    && permutationVector 4 t.p4Vector
    && sboxShape t.s0
    && sboxShape t.s1

end Sys2Proof.Machine
end

