-- ==== Sys2Proof/Machine/Sbox.lean ====
section
/-! DEFINITION. S-box substitution (`41_sbox.md`). -/

namespace Sys2Proof.Machine

/-- `sbox(b, S)` (R110): the outer bits give the row, the inner bits the column, the entry is two
bits. -/
def sbox (t : Tables) (b : BitVector) (name : SboxName) : Except Stop BitVector := do
  let rowBits ← permute b (romVector t .outer)
  let colBits ← permute b (romVector t .inner)
  match romSboxEntry t name (toInteger rowBits) (toInteger colBits) with
  | some entry => fromInteger entry Config.sboxOutBits
  | none => .error .badIndex

/-- `sboxPair(X)` (R112): S0 on the left half, S1 on the right half, S0's output first. -/
def sboxPair (t : Tables) (x : BitVector) : Except Stop BitVector := do
  let (xL, xR) ← split x
  let a ← sbox t xL .s0
  let b ← sbox t xR .s1
  return merge a b

end Sys2Proof.Machine
end

