-- ==== Sys2Proof/Machine/State.lean ====
section
/-! DEFINITION. The state of one engine and its requester, its reset value, the reasons a step can stop,
and the types of the working values that live inside one operation. -/

namespace Sys2Proof.Machine

/-- The reasons the machine stops with a fault: there are none.  Every request gets a response
(`60_exceptions.md` R186: "No hang, no stuck state") and an error is a response like any other
(R179), so nothing raises a fault (safe: no behaviour is cut off by one). -/
inductive Fault where
  deriving DecidableEq, Repr

/-- The reasons a step is refused. -/
inductive Refusal where
  /-- No meaning for the instruction; raised by no arm of `exec` (safe). -/
  | notModelled (mnemonic : String)
  /-- Raised by `step` when the ROM fails `TablesWellFormed`: "no engine exists for it"
  (`20_memory.md` R42, `92_eei_decisions.md` D21).  Safe: the spec gives no behaviour. -/
  | tablesIllFormed
  /-- Raised by an operation whose gather or S-box lookup meets an index outside its operand
  (`93_implementation_defined.md` U2: refuse).  Safe: with a well-formed ROM and operands of the right
  lengths it does not happen. -/
  | badIndex
  /-- Raised by `Fabric.stepAt` for an instance that does not exist.  Safe: nothing runs. -/
  | noSuchEngine
  deriving DecidableEq, Repr

/-- One engine and its requester.  The engine has no mutable state (`10_state.md` R10); `rom` is what
persists in it (R11), written by nothing, and the two lists are the requester's: a run is "a finite
sequence of request words chosen by the requester together with the responses"
(`70_reset_and_hazards.md` R199). -/
structure State where
  /-- The table ROM: the configuration `TABLES` this engine was built with (R11; log 1). -/
  rom : Tables
  /-- The request words the requester has still to submit, the next one first (R14, R16; log 3). -/
  requests : List Word
  /-- The response words the requester has received, oldest first (R16, R199; log 3). -/
  responses : List Word
  deriving DecidableEq, Repr

/-- After reset: the ROM holds its constant contents, no response exists (`10_state.md` R23,
`70_reset_and_hazards.md` R190), and the requester has submitted nothing. -/
def State.reset : State where
  rom := defaultTables
  requests := []
  responses := []

/-- The working values of the key schedule (`10_state.md` R12).  They exist inside one operation only,
so they are the value of `keySchedule` and no part of `State`. -/
structure KeyValues where
  k : BitVector
  kP10 : BitVector
  kL : BitVector
  kR : BitVector
  kL1 : BitVector
  kR1 : BitVector
  key1 : BitVector
  kL2 : BitVector
  kR2 : BitVector
  key2 : BitVector
  deriving DecidableEq, Repr

/-- The working values of one round (`10_state.md` R12: `E`, `X`, `XL`, `XR`, `SO`, `F` and the new
right half). -/
structure RoundValues where
  e : BitVector
  x : BitVector
  xL : BitVector
  xR : BitVector
  so : BitVector
  f : BitVector
  newR : BitVector
  deriving DecidableEq, Repr

/-- The working values of the cipher (`10_state.md` R12). -/
structure CipherValues where
  b : BitVector
  kA : BitVector
  kB : BitVector
  ipb : BitVector
  l0 : BitVector
  r0 : BitVector
  round1 : RoundValues
  l1 : BitVector
  r1 : BitVector
  round2 : RoundValues
  newR2 : BitVector
  pre : BitVector
  out : BitVector
  deriving DecidableEq, Repr

end Sys2Proof.Machine
end

