-- ==== Sys2Proof/Machine/Feistel.lean ====
section
/-! DEFINITION. The Feistel cipher (`43_feistel.md`). -/

namespace Sys2Proof.Machine

/-- The round-key order (R130): what the mode selects, and all it selects. -/
def roundKeys (key1 key2 : BitVector) : Mode → BitVector × BitVector
  | .encrypt => (key1, key2)
  | .decrypt => (key2, key1)

/-- One round (R132 to R137): steps a to e, with the values of each step named.  `so` is
`sboxPair(x)` (R135), written with its two halves because R134 names them. -/
def feistelRound (t : Tables) (lPrev rPrev kr : BitVector) : Except Stop RoundValues := do
  let e ← permute rPrev (romVector t .ep)
  let x ← xorBits e kr
  let (xL, xR) ← split x
  let so ← sboxPair t x
  let f ← permute so (romVector t .p4)
  let newR ← xorBits f lPrev
  return { e, x, xL, xR, so, f, newR }

/-- `Ffun(R_prev, Kr)` (R137). -/
def ffun (t : Tables) (rPrev kr : BitVector) : Except Stop BitVector := do
  let e ← permute rPrev (romVector t .ep)
  let x ← xorBits e kr
  let so ← sboxPair t x
  permute so (romVector t .p4)

/-- `Cipher(B, key1, key2, mode)` (R142): IP once (R131), round 1 and the swap (R138), round 2 without
a swap (R139), the final merge (R140), the inverse initial permutation (R141). -/
def cipher (t : Tables) (b key1 key2 : BitVector) (mode : Mode) : Except Stop CipherValues := do
  let (kA, kB) := roundKeys key1 key2 mode
  let ipb ← permute b (romVector t .ip)
  let (l0, r0) ← split ipb
  let round1 ← feistelRound t l0 r0 kA
  let l1 := r0
  let r1 := round1.newR
  let round2 ← feistelRound t l1 r1 kB
  let newR2 := round2.newR
  let pre := merge newR2 r1
  let out ← permute pre (romVector t .ipInverse)
  return { b, kA, kB, ipb, l0, r0, round1, l1, r1, round2, newR2, pre, out }

end Sys2Proof.Machine
end

