-- ==== Sys2Proof/Machine/Flags.lean ====
section
/-! DEFINITION. The engine has no flag register (`10_state.md` R15).  What stands in its place is the
status field of the response word: the status codes (`60_exceptions.md` R170) and the layout of a
response (`30_encoding.md` R66, R67). -/

namespace Sys2Proof.Machine

/-- Status 0, OK (R170). -/
def statusOk : Nat := 0

/-- The status code of an error kind (R170, `92_eei_decisions.md` D9). -/
def statusCode : ErrorKind → Nat
  | .invalidInput => 1
  | .lengthMismatch => 2
  | .unknownMode => 3
  | .overflow => 4
  | .illegalRequest => 5

/-- `RSP <- (status << 28) | (toInteger(hi) << 8) | toInteger(lo)` (R67). -/
def response (status : Nat) (hi lo : BitVector) : Word :=
  BitVec.ofNat 32 ((status <<< 28) ||| (toInteger hi <<< 8) ||| toInteger lo)

/-- The OK response of KEYGEN: `key1` in `RSP[15:8]`, `key2` in `RSP[7:0]` (R66). -/
def pairResponse (key1 key2 : BitVector) : Word := response statusOk key1 key2

/-- The OK response of the other operations: the output block in `RSP[7:0]` (R66). -/
def blockResponse (out : BitVector) : Word := response statusOk [] out

/-- An error response: the code, and zeros in `RSP[27:0]` (R66, R170). -/
def errorResponse (kind : ErrorKind) : Word := response (statusCode kind) [] []

/-- `RSP[31:28]` (R66). -/
def statusField (rsp : Word) : Nat := field rsp 31 28

/-- `RSP[27:16]`, always 0 (R66). -/
def zeroField (rsp : Word) : Nat := field rsp 27 16

/-- `RSP[15:8]` (R66). -/
def hiField (rsp : Word) : Nat := field rsp 15 8

/-- `RSP[7:0]` (R66). -/
def loField (rsp : Word) : Nat := field rsp 7 0

end Sys2Proof.Machine
end

