-- ==== Sys2Proof/Machine/Ops.lean ====
section
/-! DEFINITION. The operations over the state that the meanings share: giving a response, raising an
error, ending an operation, submitting a request, reset. -/

namespace Sys2Proof.Machine

/-- The engine gives the requester one response word (`10_state.md` R16). -/
def State.respond (s : State) (rsp : Word) : State := { s with responses := s.responses ++ [rsp] }

/-- The requester has one more word to submit, after those it has already (`10_state.md` R14). -/
def State.submit (s : State) (req : Word) : State := { s with requests := s.requests ++ [req] }

/-- Taking an error, the engine's only exception (`60_exceptions.md` R179): it is reported in the
response to the request that caused it; nothing is saved, no state changes and control goes nowhere.
There is no return from it (R181): the engine takes the next request as after an OK response. -/
def raiseError (kind : ErrorKind) (s : State) : Host.Outcome State Fault Refusal :=
  .next (s.respond (errorResponse kind))

/-- How a computation that stopped ends its operation: an error raised is the operation's result
(`00_scope.md` R8), an invalid index is refused (`93_implementation_defined.md` U2). -/
def halt (stop : Stop) (s : State) : Host.Outcome State Fault Refusal :=
  match stop with
  | .raise kind _ => raiseError kind s
  | .badIndex => .refused .badIndex

/-- The end of an operation (`70_reset_and_hazards.md` R199): its response word, whole, or how it
stopped. -/
def finish (result : Except Stop Word) (s : State) : Host.Outcome State Fault Refusal :=
  match result with
  | .ok rsp => .next (s.respond rsp)
  | .error stop => halt stop s

/-- A reset between operations (`70_reset_and_hazards.md` R190, R191): the ROM keeps its contents, and
the run ends, so nothing is outstanding. -/
def State.applyReset (s : State) : State := { State.reset with rom := s.rom }

end Sys2Proof.Machine
end

