-- ==== Sys2Proof/Machine/CipherOps.lean ====
section
/-! DEFINITION. Format C: CIPHER.E and CIPHER.D (`44_commands.md` R151, R152). -/

namespace Sys2Proof.Machine

/-- The response of a cipher request: the output block (R151, R152). -/
def cipherResponse (t : Tables) (key1 key2 block : BitVector) (mode : Mode) : Except Stop Word := do
  let v ← cipher t block key1 key2 mode
  return blockResponse v.out

/-- CIPHER.E (R151): round 1 uses `key1`, round 2 `key2`. -/
def execCipherE (key1 key2 block : BitVector) (s : State) : Host.Outcome State Fault Refusal :=
  finish (cipherResponse s.rom key1 key2 block .encrypt) s

/-- CIPHER.D (R152): the pair in the same order; round 1 uses `key2`, round 2 `key1`. -/
def execCipherD (key1 key2 block : BitVector) (s : State) : Host.Outcome State Fault Refusal :=
  finish (cipherResponse s.rom key1 key2 block .decrypt) s

end Sys2Proof.Machine
end

