-- ==== Sys2Proof/Machine/KeySchedule.lean ====
section
/-! DEFINITION. The key schedule (`42_key_schedule.md`). -/

namespace Sys2Proof.Machine

/-- `KeySchedule(K)` (R126) with every working value of R120 to R125 named. -/
def keySchedule (t : Tables) (k : BitVector) : Except Stop KeyValues := do
  let kP10 ← permute k (romVector t .p10)
  let (kL, kR) ← split kP10
  let kL1 := rotateLeft kL 1
  let kR1 := rotateLeft kR 1
  let key1 ← permute (merge kL1 kR1) (romVector t .p8)
  let kL2 := rotateLeft kL1 2
  let kR2 := rotateLeft kR1 2
  let key2 ← permute (merge kL2 kR2) (romVector t .p8)
  return { k, kP10, kL, kR, kL1, kR1, key1, kL2, kR2, key2 }

end Sys2Proof.Machine
end

