-- ==== Sys2Proof/Machine/BlockOps.lean ====
section
/-! DEFINITION. Format B: ENCRYPT and DECRYPT (`44_commands.md` R153, R154). -/

namespace Sys2Proof.Machine

/-- The response of a block request: the key schedule, the same in both modes, and then the cipher on
the pair, which is not kept (R153, R154, `10_state.md` R22). -/
def blockOpResponse (t : Tables) (key block : BitVector) (mode : Mode) : Except Stop Word := do
  let v ← keySchedule t key
  cipherResponse t v.key1 v.key2 block mode

/-- ENCRYPT (R153). -/
def execEncrypt (key block : BitVector) (s : State) : Host.Outcome State Fault Refusal :=
  finish (blockOpResponse s.rom key block .encrypt) s

/-- DECRYPT (R154). -/
def execDecrypt (key block : BitVector) (s : State) : Host.Outcome State Fault Refusal :=
  finish (blockOpResponse s.rom key block .decrypt) s

end Sys2Proof.Machine
end

