-- ==== Sys2Proof/Machine/Keygen.lean ====
section
/-! DEFINITION. Format K: KEYGEN (`44_commands.md` R150). -/

namespace Sys2Proof.Machine

/-- The response of KEYGEN (R150). -/
def keygenResponse (t : Tables) (key : BitVector) : Except Stop Word := do
  let v ← keySchedule t key
  return pairResponse v.key1 v.key2

/-- KEYGEN (R150). -/
def execKeygen (key : BitVector) (s : State) : Host.Outcome State Fault Refusal :=
  finish (keygenResponse s.rom key) s

end Sys2Proof.Machine
end

