-- ==== Sys2Proof/Machine/Dispatch.lean ====
section
/-! DEFINITION. The dispatch: one arm per operation of the opcode map (`30_encoding.md` R68). -/

namespace Sys2Proof.Machine

def exec (i : Instr) (s : State) : Host.Outcome State Fault Refusal :=
  match i with
  | .keygen key => Sys2Proof.Machine.execKeygen key s
  | .cipherE key1 key2 block => Sys2Proof.Machine.execCipherE key1 key2 block s
  | .cipherD key1 key2 block => Sys2Proof.Machine.execCipherD key1 key2 block s
  | .encrypt key block => Sys2Proof.Machine.execEncrypt key block s
  | .decrypt key block => Sys2Proof.Machine.execDecrypt key block s

end Sys2Proof.Machine
end

