-- ==== Sys2Proof/Machine/Request.lean ====
section
/-! DEFINITION. Answering one request word, and the engine as one pure function of the ROM and the word
(`44_commands.md` R156). -/

namespace Sys2Proof.Machine

/-- One request answered: the decoder's error, or the operation it selects (R156). -/
def answer (req : Word) (s : State) : Host.Outcome State Fault Refusal :=
  match decode req with
  | .error stop => halt stop s
  | .ok i => exec i s

/-- The step of an engine whose ROM is well formed.  With no request to answer the engine is idle and
nothing changes: it "owes exactly one response per request and nothing at any other time"
(`10_state.md` R16; log 4). -/
def serve (s : State) : Host.Outcome State Fault Refusal :=
  match s.requests with
  | [] => .next s
  | req :: rest => answer req { s with requests := rest }

/-- The response an operation gives, as a function of the ROM (R150 to R154). -/
def operationResponse (t : Tables) : Instr → Except Stop Word
  | .keygen key => keygenResponse t key
  | .cipherE key1 key2 block => cipherResponse t key1 key2 block .encrypt
  | .cipherD key1 key2 block => cipherResponse t key1 key2 block .decrypt
  | .encrypt key block => blockOpResponse t key block .encrypt
  | .decrypt key block => blockOpResponse t key block .decrypt

/-- Decoding and the operation, one after the other (R156). -/
def engineResult (t : Tables) (req : Word) : Except Stop Word := do
  let i ← decode req
  operationResponse t i

/-- The response word a result stands for: the result itself, or the error's response word
(`60_exceptions.md` R170); none for an invalid index. -/
def responseOf : Except Stop Word → Option Word
  | .ok rsp => some rsp
  | .error (.raise kind _) => some (errorResponse kind)
  | .error .badIndex => none

/-- `Engine(TABLES, REQ)` (R156): the response word; `none` for contents no engine exists for
(`20_memory.md` R42). -/
def engine (t : Tables) (req : Word) : Option Word :=
  if tablesWellFormed t then responseOf (engineResult t req) else none

end Sys2Proof.Machine
end

