-- ==== Sys2Proof/Machine/Step.lean ====
section
/-! DEFINITION. The step, and the placing of a request word where the step takes its next one. -/

namespace Sys2Proof.Machine

/-- One step: take the next request word, give its response, change nothing else (`44_commands.md`
R156).  A ROM that fails `TablesWellFormed` is refused (`20_memory.md` R42). -/
def step (s : State) : Host.Outcome State Fault Refusal :=
  if tablesWellFormed s.rom then serve s else .refused .tablesIllFormed

/-- The state in which the requester submits the given word next (`10_state.md` R16; log 5). -/
def State.withFetchWord (s : State) (nbits w : Nat) : State :=
  { s with requests := tableWord nbits w :: s.requests }

end Sys2Proof.Machine
end

