-- ==== Sys2Proof/Machine/FrontEnd.lean ====
section
/-! DEFINITION. The text front end, the source's "boundary" (`44_commands.md` R157), with the defaults of
`30_encoding.md` R75, the text of a result (R76) and the exit codes (`60_exceptions.md` R173). -/

namespace Sys2Proof.Machine

/-- The default of `-k` (R75). -/
def defaultKeyText : Text := "0000000000".toList

/-- The default of `-i` (R75). -/
def defaultBlockText : Text := "00000000".toList

/-- The default of `-m` (R75). -/
def defaultModeText : Text := "encrypt".toList

/-- A text that must be exactly `n` binary characters: first its characters, then its length
(R157, `60_exceptions.md` R171, R175). -/
def textOperand (n : Nat) (text : Text) : Except Stop BitVector := do
  let v ← parse text
  if v.length = n then return v else .error (.raise .invalidInput none)

/-- The mode field a mode text stands for, matched exactly (R157, R75). -/
def textMode (text : Text) : Except Stop Nat :=
  if text = "encrypt".toList then .ok 0
  else if text = "decrypt".toList then .ok 1
  else .error (.raise .unknownMode none)

/-- The format B request the front end builds, or the first check that fails: key, block, mode
(R157).  `none` is an omitted operand, which takes its default. -/
def frontEndRequest (keyText blockText modeText : Option Text) : Except Stop Word := do
  let k ← textOperand Config.keyBits (keyText.getD defaultKeyText)
  let b ← textOperand Config.blockBits (blockText.getD defaultBlockText)
  let m ← textMode (modeText.getD defaultModeText)
  return wordB m k b

/-- `FrontEnd(keyText, blockText, modeText)` (R157): the response word. -/
def frontEnd (t : Tables) (keyText blockText modeText : Option Text) : Option Word :=
  match frontEndRequest keyText blockText modeText with
  | .ok req => engine t req
  | .error stop => responseOf (.error stop)

/-- The front end in use: a failed check is the response and no request reaches the engine; otherwise
the engine is given the request at once (R157). -/
def frontEndCall (keyText blockText modeText : Option Text) (s : State) :
    Host.Outcome State Fault Refusal :=
  match frontEndRequest keyText blockText modeText with
  | .ok req => step { s with requests := req :: s.requests }
  | .error stop => halt stop s

/-- The text of the output block of an OK response (R75, R76). -/
def outputText (rsp : Word) : Except Stop Text := do
  let out ← fromInteger (loField rsp) Config.blockBits
  return toText out

/-- The exit code a front end maps a status to (`60_exceptions.md` R173). -/
def exitCode (status : Nat) : Nat := if status = statusOk then 0 else 1

end Sys2Proof.Machine
end

