-- ==== Sys2Proof/Machine/Assembler.lean ====
section
/-! DEFINITION. The mnemonic syntax, one request a line (`30_encoding.md` R73), with the defaults of
omitted operands (R74). -/

namespace Sys2Proof.Machine

/-- The mnemonics of the opcode map (R68, R73). -/
def mnemonicText : Opcode → Text
  | .keygen => "KEYGEN".toList
  | .cipherE => "CIPHER.E".toList
  | .cipherD => "CIPHER.D".toList
  | .encrypt => "ENCRYPT".toList
  | .decrypt => "DECRYPT".toList

/-- The row a mnemonic names.  DESIGN CHOICE (log 9): only the five mnemonics of R73 name one.  R74 says
that "an omitted mode means encrypt" and no mnemonic of R73 is without its mode, so a bare `CIPHER` is no
mnemonic here, and a mode is omitted in the front end only. -/
def opcodeOfText (text : Text) : Option Opcode :=
  [Opcode.keygen, .cipherE, .cipherD, .encrypt, .decrypt].find? fun op => mnemonicText op == text

/-- The characters that separate the mnemonic from its operands and may surround an operand
(log 9). -/
def isBlank (c : Char) : Bool := c == ' ' || c == '\t'

/-- A text without the blanks around it. -/
def trim (text : Text) : Text :=
  ((text.dropWhile isBlank).reverse.dropWhile isBlank).reverse

/-- The pieces of a text between its commas: always at least one. -/
def splitAtCommas : Text → List Text
  | [] => [[]]
  | c :: rest =>
    if c = ',' then [] :: splitAtCommas rest
    else match splitAtCommas rest with
      | [] => [[c]]
      | piece :: pieces => (c :: piece) :: pieces

/-- The operand texts of a line after its mnemonic. -/
def operandTexts (text : Text) : List Text :=
  if trim text = [] then [] else (splitAtCommas text).map trim

/-- The length of each operand of a row and its default when it is omitted (R73, R74): a master key
and a block have one, a round key has none. -/
def operandForms : Opcode → List (Nat × Option Text)
  | .keygen => [(Config.keyBits, some defaultKeyText)]
  | .cipherE => [(Config.subkeyBits, none), (Config.subkeyBits, none), (Config.blockBits, some defaultBlockText)]
  | .cipherD => [(Config.subkeyBits, none), (Config.subkeyBits, none), (Config.blockBits, some defaultBlockText)]
  | .encrypt => [(Config.keyBits, some defaultKeyText), (Config.blockBits, some defaultBlockText)]
  | .decrypt => [(Config.keyBits, some defaultKeyText), (Config.blockBits, some defaultBlockText)]

/-- One operand: exactly `n` binary characters. -/
def operandBits (n : Nat) (text : Text) : Option BitVector :=
  match textOperand n text with
  | .ok v => some v
  | .error _ => none

/-- The operands of a line.  An operand that is missing or empty takes its default. -/
def operandsOf : List (Nat × Option Text) → List Text → Option (List BitVector)
  | [], [] => some []
  | [], _ :: _ => none
  | (n, default) :: forms, [] => do
    let v ← operandBits n (← default)
    let rest ← operandsOf forms []
    return v :: rest
  | (n, default) :: forms, text :: texts => do
    let v ← operandBits n (← if text = [] then default else some text)
    let rest ← operandsOf forms texts
    return v :: rest

/-- The operation of a row with the given operands. -/
def instrOf : Opcode → List BitVector → Option Instr
  | .keygen, [key] => some (.keygen key)
  | .cipherE, [key1, key2, block] => some (.cipherE key1 key2 block)
  | .cipherD, [key1, key2, block] => some (.cipherD key1 key2 block)
  | .encrypt, [key, block] => some (.encrypt key block)
  | .decrypt, [key, block] => some (.decrypt key block)
  | _, _ => none

/-- The operation a line writes down: `;` starts a comment, the mnemonic comes first, the operands are
separated by commas (R73).  A line that is not of that form writes down nothing. -/
def readLine (line : Text) : Option Instr :=
  let body := (line.takeWhile fun c => c != ';').dropWhile isBlank
  match opcodeOfText (body.takeWhile fun c => !isBlank c) with
  | none => none
  | some op => do
    let operands ← operandsOf (operandForms op) (operandTexts (body.dropWhile fun c => !isBlank c))
    instrOf op operands

/-- "A line assembles to the request word of rule R68" (R73). -/
def assemble (line : Text) : Option Word := (readLine line).map encode

/-- The operands of an operation in the order it is written down. -/
def operandList : Instr → List BitVector
  | .keygen key => [key]
  | .cipherE key1 key2 block => [key1, key2, block]
  | .cipherD key1 key2 block => [key1, key2, block]
  | .encrypt key block => [key, block]
  | .decrypt key block => [key, block]

/-- The operands' texts, a comma and a space between two of them. -/
def joinOperands : List BitVector → Text
  | [] => []
  | [v] => toText v
  | v :: w :: rest => toText v ++ ',' :: ' ' :: joinOperands (w :: rest)

/-- An operation written down as a line (R73). -/
def writeLine (i : Instr) : Text :=
  mnemonicText i.opcode ++ ' ' :: joinOperands (operandList i)

end Sys2Proof.Machine
end

