-- ==== Sys2Proof/Machine/Fabric.lean ====
section
/-! DEFINITION. Several engine instances over one table ROM (`10_state.md` R20, `00_scope.md` R5). -/

namespace Sys2Proof.Machine

/-- What one instance's requester holds: its words to come and its responses. -/
structure Port where
  requests : List Word
  responses : List Word
  deriving DecidableEq, Repr

/-- The instances: "they share the ROM, which none of them writes, and nothing else" (R20). -/
structure Fabric where
  rom : Tables
  ports : List Port
  deriving DecidableEq, Repr

/-- One instance and the shared ROM, as a machine of its own. -/
def Port.toState (rom : Tables) (p : Port) : State :=
  { rom := rom, requests := p.requests, responses := p.responses }

/-- What an instance keeps apart from the others. -/
def State.toPort (s : State) : Port := { requests := s.requests, responses := s.responses }

/-- One atomic step of instance `i` (R20).  Which instance steps next is not the machine's choice. -/
def Fabric.stepAt (f : Fabric) (i : Nat) : Host.Outcome Fabric Fault Refusal :=
  match f.ports[i]? with
  | none => .refused .noSuchEngine
  | some p =>
    match step (p.toState f.rom) with
    | .next s => .next { rom := s.rom, ports := f.ports.set i s.toPort }
    | .fault r => .fault r
    | .refused r => .refused r

/-- After reset every instance is idle (`70_reset_and_hazards.md` R190); there are `NUM_ENGINES` of
them (R5). -/
def Fabric.reset : Fabric :=
  { rom := State.reset.rom, ports := List.replicate Config.numEngines State.reset.toPort }

end Sys2Proof.Machine
end

