-- ==== Sys2Proof/Safety.lean ====
section
/-! DEFINITION. What a legal response is, the invariant of the machine, and what a run without errors
is. -/

namespace Sys2Proof.Safety

open Machine

/-- A response word that keeps the layout of `30_encoding.md` R66: a status among those that can occur
(`60_exceptions.md` R178: 0, 3 and 5 from a request word, 1 from the front end), `RSP[27:16]` zero, and
with a status other than 0 the whole of `RSP[27:0]` zero. -/
def legalResponse (rsp : Word) : Bool :=
  (statusField rsp == 0 || statusField rsp == 1 || statusField rsp == 3 || statusField rsp == 5)
    && zeroField rsp == 0
    && (statusField rsp == 0 || field rsp 27 0 == 0)

/-- The invariant: an engine exists for the ROM's contents (`20_memory.md` R42) and every response
received is legal. -/
def Inv (s : State) : Prop :=
  tablesWellFormed s.rom = true ∧ ∀ rsp ∈ s.responses, legalResponse rsp = true

/-- "A claim about a successful run takes `status = 0` as a premise or proves it"
(`60_exceptions.md` R186). -/
def succeeded (rsp : Word) : Bool := statusField rsp == 0

/-- The six classes of `30_encoding.md` R69, in the order of its table: reserved op; format K, C, B with
a reserved bit set; a format C or B word with its reserved bits clear and no mode; a row of R68. -/
def requestClasses (w : Word) : List Bool :=
  [ field w 31 30 == 0,
    field w 31 30 == 1 && (field w 29 28 != 0 || field w 17 0 != 0),
    field w 31 30 == 2 && field w 3 0 != 0,
    field w 31 30 == 3 && field w 9 0 != 0,
    (field w 31 30 == 2 && field w 3 0 == 0 || field w 31 30 == 3 && field w 9 0 == 0)
      && (field w 29 28 == 2 || field w 29 28 == 3),
    [Opcode.keygen, .cipherE, .cipherD, .encrypt, .decrypt].any fun row => selects row w ]

/-- The values of one round, element by element (`43_feistel.md` R132 to R137), for a left half, a right
half and a round key. -/
def RoundSpec (t : Tables) (lPrev rPrev kr : BitVector) (v : RoundValues) : Prop :=
  (v.e.length = 8 ∧ ∀ i j : Nat, t.epVector[i]? = some j → v.e[i]? = rPrev[j]?) ∧
  (v.x.length = 8 ∧ ∀ (i : Nat) (a b : Bool), v.e[i]? = some a → kr[i]? = some b → v.x[i]? = some (a ^^ b)) ∧
  (v.xL.length = 4 ∧ v.xR.length = 4 ∧ ∀ i < 4, v.xL[i]? = v.x[i]? ∧ v.xR[i]? = v.x[4 + i]?) ∧
  (∃ a b, sbox t v.xL .s0 = .ok a ∧ sbox t v.xR .s1 = .ok b ∧ a.length = 2 ∧ b.length = 2 ∧
    v.so = a ++ b ∧ sboxPair t v.x = .ok v.so) ∧
  (v.f.length = 4 ∧ ∀ i j : Nat, t.p4Vector[i]? = some j → v.f[i]? = v.so[j]?) ∧
  ffun t rPrev kr = .ok v.f ∧
  (v.newR.length = 4 ∧
    ∀ (i : Nat) (a b : Bool), v.f[i]? = some a → lPrev[i]? = some b → v.newR[i]? = some (a ^^ b))

end Sys2Proof.Safety
end

