-- ==== Sys2Proof/Certificates/Slice0/Obligations.lean ====
section
/-! DEFINITION. The statements for the provers. -/

open Sys2Proof Sys2Proof.Machine Sys2Proof.Safety

/-! ## Encoding -/

/-- One word of each row of the opcode map (`30_encoding.md` R68), as `95_test_vectors.md` section 2.6
writes it, decodes to the operation it stands for. -/
def Obligations.WordsOfEveryRowDecode : Prop :=
  decode 0x4A080000#32 = .ok (.keygen (bits "1010000010")) ∧
  decode 0x8A443010#32 = .ok (.cipherE (bits "10100100") (bits "01000011") (bits "00000001")) ∧
  decode 0x9A443810#32 = .ok (.cipherD (bits "10100100") (bits "01000011") (bits "10000001")) ∧
  decode 0xCA080400#32 = .ok (.encrypt (bits "1010000010") (bits "00000001")) ∧
  decode 0xDA0A0400#32 = .ok (.decrypt (bits "1010000010") (bits "10000001"))

/-- "`Decode(Encode(o)) = o` for every operation `o` with operands of the right lengths"
(`30_encoding.md` section 4). -/
def Obligations.DecodeOfEncodeIsTheOperation : Prop :=
  ∀ i : Instr, i.wf = true → decode (encode i) = .ok i

/-- "`Encode(Decode(REQ)) = REQ` for every word that decodes to an operation" (`30_encoding.md`
section 4), and that operation has operands of the right lengths. -/
def Obligations.EncodeOfDecodeIsTheWord : Prop :=
  ∀ (w : Word) (i : Instr), decode w = .ok i → encode i = w ∧ i.wf = true

/-- The opcode map (`30_encoding.md` R68): a row's mask and match select exactly the words that decode to
the row's operation, with the operand fields of the row; the rows are pairwise disjoint; a word that
selects no row decodes to an error. -/
def Obligations.RowsSelectTheWordsOfTheirOperation : Prop :=
  ∀ w : Word,
    (w &&& 0xF003FFFF#32 = 0x40000000#32 ↔
      ∃ key, fromInteger (field w 27 18) 10 = .ok key ∧ decode w = .ok (.keygen key)) ∧
    (w &&& 0xF000000F#32 = 0x80000000#32 ↔
      ∃ key1 key2 block, fromInteger (field w 27 20) 8 = .ok key1 ∧
        fromInteger (field w 19 12) 8 = .ok key2 ∧ fromInteger (field w 11 4) 8 = .ok block ∧
        decode w = .ok (.cipherE key1 key2 block)) ∧
    (w &&& 0xF000000F#32 = 0x90000000#32 ↔
      ∃ key1 key2 block, fromInteger (field w 27 20) 8 = .ok key1 ∧
        fromInteger (field w 19 12) 8 = .ok key2 ∧ fromInteger (field w 11 4) 8 = .ok block ∧
        decode w = .ok (.cipherD key1 key2 block)) ∧
    (w &&& 0xF00003FF#32 = 0xC0000000#32 ↔
      ∃ key block, fromInteger (field w 27 18) 10 = .ok key ∧
        fromInteger (field w 17 10) 8 = .ok block ∧ decode w = .ok (.encrypt key block)) ∧
    (w &&& 0xF00003FF#32 = 0xD0000000#32 ↔
      ∃ key block, fromInteger (field w 27 18) 10 = .ok key ∧
        fromInteger (field w 17 10) 8 = .ok block ∧ decode w = .ok (.decrypt key block)) ∧
    (∀ row row', selects row w = true → selects row' w = true → row = row') ∧
    ((∀ row, selects row w = false) →
      decode w = .error (.raise .illegalRequest none) ∨ decode w = .error (.raise .unknownMode none))

/-- Reserved and illegal encodings (`30_encoding.md` R69): every word is in exactly one of the six
classes, and a step answers it as its class says. -/
def Obligations.EveryWordIsAnsweredByItsClass : Prop :=
  ∀ (s : State) (w : Word) (rest : List Word),
    tablesWellFormed s.rom = true → s.requests = w :: rest →
    (requestClasses w).count true = 1 ∧
    (field w 31 30 = 0 →
      step s = .next { s with requests := rest, responses := s.responses ++ [0x50000000#32] }) ∧
    (field w 31 30 = 1 → field w 29 28 ≠ 0 ∨ field w 17 0 ≠ 0 →
      step s = .next { s with requests := rest, responses := s.responses ++ [0x50000000#32] }) ∧
    (field w 31 30 = 2 → field w 3 0 ≠ 0 →
      step s = .next { s with requests := rest, responses := s.responses ++ [0x50000000#32] }) ∧
    (field w 31 30 = 3 → field w 9 0 ≠ 0 →
      step s = .next { s with requests := rest, responses := s.responses ++ [0x50000000#32] }) ∧
    (field w 31 30 = 2 ∧ field w 3 0 = 0 ∨ field w 31 30 = 3 ∧ field w 9 0 = 0 →
      field w 29 28 = 2 ∨ field w 29 28 = 3 →
      step s = .next { s with requests := rest, responses := s.responses ++ [0x30000000#32] }) ∧
    (∀ row, selects row w = true →
      ∃ i rsp, decode w = .ok i ∧ i.opcode = row ∧ operationResponse s.rom i = .ok rsp ∧
        step s = .next { s with requests := rest, responses := s.responses ++ [rsp] })

/-! ## The step -/

/-- A step takes the next request word and, when it decodes to an operation, is that operation's meaning
on the rest (`44_commands.md` R156). -/
def Obligations.StepRunsTheDecodedOperation : Prop :=
  ∀ (s : State) (w : Word) (rest : List Word) (i : Instr),
    tablesWellFormed s.rom = true → s.requests = w :: rest → decode w = .ok i →
    step s = exec i { s with requests := rest }

/-- The engine as one total function (`44_commands.md` R156): a step produces `Engine(TABLES, REQ)` and
changes nothing else, whatever the word; the response is the decoder's error or the operation's
result; only the status codes 0, 3 and 5 appear. -/
def Obligations.StepAnswersAsTheEngineFunction : Prop :=
  ∀ (s : State) (w : Word) (rest : List Word),
    tablesWellFormed s.rom = true → s.requests = w :: rest →
    ∃ rsp, engine s.rom w = some rsp ∧
      step s = .next { s with requests := rest, responses := s.responses ++ [rsp] } ∧
      (statusField rsp = 0 ∨ statusField rsp = 3 ∨ statusField rsp = 5) ∧
      (∀ kind info, decode w = .error (.raise kind info) →
        rsp = BitVec.ofNat 32 (statusCode kind <<< 28)) ∧
      (∀ key, decode w = .ok (.keygen key) → ∃ v, keySchedule s.rom key = .ok v ∧
        rsp = BitVec.ofNat 32 ((toInteger v.key1 <<< 8) ||| toInteger v.key2)) ∧
      (∀ key1 key2 block, decode w = .ok (.cipherE key1 key2 block) →
        ∃ v, cipher s.rom block key1 key2 .encrypt = .ok v ∧
          rsp = BitVec.ofNat 32 (toInteger v.out)) ∧
      (∀ key1 key2 block, decode w = .ok (.cipherD key1 key2 block) →
        ∃ v, cipher s.rom block key1 key2 .decrypt = .ok v ∧
          rsp = BitVec.ofNat 32 (toInteger v.out)) ∧
      (∀ key block, decode w = .ok (.encrypt key block) →
        ∃ ks v, keySchedule s.rom key = .ok ks ∧
          cipher s.rom block ks.key1 ks.key2 .encrypt = .ok v ∧
          rsp = BitVec.ofNat 32 (toInteger v.out)) ∧
      (∀ key block, decode w = .ok (.decrypt key block) →
        ∃ ks v, keySchedule s.rom key = .ok ks ∧
          cipher s.rom block ks.key1 ks.key2 .decrypt = .ok v ∧
          rsp = BitVec.ofNat 32 (toInteger v.out))

/-- The response word of every step on a request, and of every error kind whoever raises it
(`30_encoding.md` R66): the status, `RSP[27:16]` zero, KEYGEN's pair in `hi` and `lo`, the output block
in `lo` and zero in `hi` for the other operations, and the whole of `RSP[27:0]` zero with a status other
than 0. -/
def Obligations.ResponsesKeepTheLayout : Prop :=
  (statusField (errorResponse .invalidInput) = 1 ∧ statusField (errorResponse .lengthMismatch) = 2 ∧
    statusField (errorResponse .unknownMode) = 3 ∧ statusField (errorResponse .overflow) = 4 ∧
    statusField (errorResponse .illegalRequest) = 5) ∧
  (∀ kind : ErrorKind, field (errorResponse kind) 27 0 = 0) ∧
  (∀ (kind : ErrorKind) (info : Option Nat) (s : State),
    halt (.raise kind info) s = .next { s with responses := s.responses ++ [errorResponse kind] }) ∧
  ∀ (s : State) (w : Word) (rest : List Word),
    tablesWellFormed s.rom = true → s.requests = w :: rest →
    ∃ rsp, step s = .next { s with requests := rest, responses := s.responses ++ [rsp] } ∧
      statusField rsp ≤ 5 ∧ zeroField rsp = 0 ∧
      (statusField rsp ≠ 0 → field rsp 27 0 = 0) ∧
      (∀ kind info, decode w = .error (.raise kind info) → rsp = errorResponse kind) ∧
      (∀ i, decode w = .ok i → statusField rsp = 0) ∧
      (∀ key, decode w = .ok (.keygen key) → ∃ v, keySchedule s.rom key = .ok v ∧
        hiField rsp = toInteger v.key1 ∧ loField rsp = toInteger v.key2) ∧
      (∀ i, decode w = .ok i → i.opcode ≠ .keygen → hiField rsp = 0) ∧
      (∀ key1 key2 block, decode w = .ok (.cipherE key1 key2 block) →
        ∃ v, cipher s.rom block key1 key2 .encrypt = .ok v ∧ loField rsp = toInteger v.out) ∧
      (∀ key1 key2 block, decode w = .ok (.cipherD key1 key2 block) →
        ∃ v, cipher s.rom block key1 key2 .decrypt = .ok v ∧ loField rsp = toInteger v.out) ∧
      (∀ key block, decode w = .ok (.encrypt key block) →
        ∃ ks v, keySchedule s.rom key = .ok ks ∧
          cipher s.rom block ks.key1 ks.key2 .encrypt = .ok v ∧ loField rsp = toInteger v.out) ∧
      (∀ key block, decode w = .ok (.decrypt key block) →
        ∃ ks v, keySchedule s.rom key = .ok ks ∧
          cipher s.rom block ks.key1 ks.key2 .decrypt = .ok v ∧ loField rsp = toInteger v.out)

/-- With no request to answer a step changes nothing: the model's choice (log 4), read from
`10_state.md` R16, "the engine owes exactly one response per request and nothing at any other time". -/
def Obligations.IdleStepChangesNothing : Prop :=
  ∀ s : State, tablesWellFormed s.rom = true → s.requests = [] → step s = .next s

/-- Table contents that fail `TablesWellFormed` are refused: "no engine exists for it"
(`20_memory.md` section 2; the refusal at the step is log 1's). -/
def Obligations.IllFormedTablesAreRefused : Prop :=
  ∀ s : State, tablesWellFormed s.rom = false →
    step s = .refused .tablesIllFormed ∧ ∀ w, engine s.rom w = none

/-- What an operation leaves unchanged, whichever it is and whatever its operands: the ROM and each of its
entries, and the requests still to come; it adds exactly one response (`10_state.md` sections 1 and 2,
`20_memory.md` section 3). -/
def Obligations.OperationsOnlyAddOneResponse : Prop :=
  ∀ (i : Instr) (s t : State), exec i s = .next t →
    t.rom = s.rom ∧
    (∀ name n, romVectorEntry t.rom name n = romVectorEntry s.rom name n) ∧
    (∀ name row col, romSboxEntry t.rom name row col = romSboxEntry s.rom name row col) ∧
    t.requests = s.requests ∧
    ∃ rsp, t.responses = s.responses ++ [rsp]

/-! ## The five operations -/

/-- KEYGEN (`44_commands.md` R150).  The example's values rest on the
contents of `20_memory.md` R41, which the spec marks as not from the source (log 2). -/
def Obligations.KeygenAnswersTheKeyPair : Prop :=
  (∀ (s : State) (key : BitVector), tablesWellFormed s.rom = true → key.length = 10 →
    ∃ v, keySchedule s.rom key = .ok v ∧ v.key1.length = 8 ∧ v.key2.length = 8 ∧
      exec (.keygen key) s = .next { s with responses := s.responses ++
        [BitVec.ofNat 32 ((0 <<< 28) ||| (toInteger v.key1 <<< 8) ||| toInteger v.key2)] }) ∧
  (∀ w : Word, w &&& 0xF003FFFF#32 = 0x40000000#32 →
    ∃ key, fromInteger (field w 27 18) 10 = .ok key ∧ key.length = 10 ∧
      decode w = .ok (.keygen key)) ∧
  (∀ (s : State) (w : Word) (rest : List Word), tablesWellFormed s.rom = true →
    s.requests = w :: rest → field w 31 30 = 1 → field w 29 28 ≠ 0 ∨ field w 17 0 ≠ 0 →
    step s = .next { s with requests := rest, responses := s.responses ++ [0x50000000#32] }) ∧
  (∀ s : State, tablesWellFormed s.rom = true →
    exec (.keygen (bits "0000000000")) s
      = .next { s with responses := s.responses ++ [0x00000000#32] }) ∧
  (∀ t : Tables, tablesWellFormed t = true →
    (∃ k k' v v', k.length = 10 ∧ k'.length = 10 ∧ k ≠ k' ∧ keySchedule t k = .ok v ∧
      keySchedule t k' = .ok v' ∧ v.key1 = v'.key1) ∧
    (∃ k k' v v', k.length = 10 ∧ k'.length = 10 ∧ k ≠ k' ∧ keySchedule t k = .ok v ∧
      keySchedule t k' = .ok v' ∧ v.key2 = v'.key2)) ∧
  (decode 0x4A080000#32 = .ok (.keygen (bits "1010000010")) ∧
    ∀ s : State, s.rom = defaultTables →
      exec (.keygen (bits "1010000010")) s
        = .next { s with responses := s.responses ++ [0x0000A443#32] })

/-- CIPHER.E (`44_commands.md` R151).  The example's values rest on the
contents of `20_memory.md` R41, which the spec marks as not from the source (log 2). -/
def Obligations.CipherEAnswersTheEncryptedBlock : Prop :=
  (∀ (s : State) (key1 key2 block : BitVector), tablesWellFormed s.rom = true → key1.length = 8 →
    key2.length = 8 → block.length = 8 →
    ∃ v, cipher s.rom block key1 key2 .encrypt = .ok v ∧ v.out.length = 8 ∧ v.kA = key1 ∧
      v.kB = key2 ∧
      exec (.cipherE key1 key2 block) s = .next { s with responses := s.responses ++
        [BitVec.ofNat 32 ((0 <<< 28) ||| toInteger v.out)] } ∧
      exec (.cipherD key1 key2 v.out) s = .next { s with responses := s.responses ++
        [BitVec.ofNat 32 (toInteger block)] }) ∧
  (∀ w : Word, w &&& 0xF000000F#32 = 0x80000000#32 →
    ∃ key1 key2 block, fromInteger (field w 27 20) 8 = .ok key1 ∧
      fromInteger (field w 19 12) 8 = .ok key2 ∧ fromInteger (field w 11 4) 8 = .ok block ∧
      key1.length = 8 ∧ key2.length = 8 ∧ block.length = 8 ∧
      decode w = .ok (.cipherE key1 key2 block)) ∧
  (∀ (s : State) (w : Word) (rest : List Word), tablesWellFormed s.rom = true →
    s.requests = w :: rest → field w 31 30 = 2 → field w 3 0 ≠ 0 →
    step s = .next { s with requests := rest, responses := s.responses ++ [0x50000000#32] }) ∧
  (∀ (s : State) (key block : BitVector),
    exec (.cipherE key key block) s = exec (.cipherD key key block) s) ∧
  (decode 0x8A443010#32 = .ok (.cipherE (bits "10100100") (bits "01000011") (bits "00000001")) ∧
    ∀ s : State, s.rom = defaultTables →
      exec (.cipherE (bits "10100100") (bits "01000011") (bits "00000001")) s
        = .next { s with responses := s.responses ++ [0x00000081#32] })

/-- CIPHER.D (`44_commands.md` R152).  That it is CIPHER.E on the exchanged pair is the spec's own inference
in that rule: "Consequently `CIPHER.D(key1, key2, B) = CIPHER.E(key2, key1, B)` for all operands [derived:
from `43_feistel.md` rules R130, R142]".  The example's values rest on the
contents of `20_memory.md` R41, which the spec marks as not from the source (log 2). -/
def Obligations.CipherDAnswersTheDecryptedBlock : Prop :=
  (∀ (s : State) (key1 key2 block : BitVector), tablesWellFormed s.rom = true → key1.length = 8 →
    key2.length = 8 → block.length = 8 →
    ∃ v, cipher s.rom block key1 key2 .decrypt = .ok v ∧ v.out.length = 8 ∧ v.kA = key2 ∧
      v.kB = key1 ∧
      exec (.cipherD key1 key2 block) s = .next { s with responses := s.responses ++
        [BitVec.ofNat 32 ((0 <<< 28) ||| toInteger v.out)] }) ∧
  (∀ w : Word, w &&& 0xF000000F#32 = 0x90000000#32 →
    ∃ key1 key2 block, fromInteger (field w 27 20) 8 = .ok key1 ∧
      fromInteger (field w 19 12) 8 = .ok key2 ∧ fromInteger (field w 11 4) 8 = .ok block ∧
      key1.length = 8 ∧ key2.length = 8 ∧ block.length = 8 ∧
      decode w = .ok (.cipherD key1 key2 block)) ∧
  (∀ (s : State) (w : Word) (rest : List Word), tablesWellFormed s.rom = true →
    s.requests = w :: rest → field w 31 30 = 2 → field w 3 0 ≠ 0 →
    step s = .next { s with requests := rest, responses := s.responses ++ [0x50000000#32] }) ∧
  (∀ (s : State) (key1 key2 block : BitVector),
    exec (.cipherD key1 key2 block) s = exec (.cipherE key2 key1 block) s) ∧
  (decode 0x9A443810#32 = .ok (.cipherD (bits "10100100") (bits "01000011") (bits "10000001")) ∧
    ∀ s : State, s.rom = defaultTables →
      exec (.cipherD (bits "10100100") (bits "01000011") (bits "10000001")) s
        = .next { s with responses := s.responses ++ [0x00000001#32] })

/-- ENCRYPT (`44_commands.md` R153).  That it equals CIPHER.E on the key schedule's pair is the spec's own
inference in that rule: "`ENCRYPT(K, B)` equals `CIPHER.E` on the pair that `KEYGEN(K)` returns [derived:
from rules R150, R151]".  The example's values rest on the
contents of `20_memory.md` R41, which the spec marks as not from the source (log 2). -/
def Obligations.EncryptAnswersTheEncryptedBlock : Prop :=
  (∀ (s : State) (key block : BitVector), tablesWellFormed s.rom = true → key.length = 10 →
    block.length = 8 →
    ∃ ks v, keySchedule s.rom key = .ok ks ∧ cipher s.rom block ks.key1 ks.key2 .encrypt = .ok v ∧
      v.out.length = 8 ∧
      exec (.encrypt key block) s = .next { s with responses := s.responses ++
        [BitVec.ofNat 32 ((0 <<< 28) ||| toInteger v.out)] } ∧
      exec (.encrypt key block) s = exec (.cipherE ks.key1 ks.key2 block) s) ∧
  (∀ w : Word, w &&& 0xF00003FF#32 = 0xC0000000#32 →
    ∃ key block, fromInteger (field w 27 18) 10 = .ok key ∧ fromInteger (field w 17 10) 8 = .ok block ∧
      key.length = 10 ∧ block.length = 8 ∧ decode w = .ok (.encrypt key block)) ∧
  (∀ (s : State) (w : Word) (rest : List Word), tablesWellFormed s.rom = true →
    s.requests = w :: rest → field w 31 30 = 3 → field w 9 0 ≠ 0 →
    step s = .next { s with requests := rest, responses := s.responses ++ [0x50000000#32] }) ∧
  (∀ (s : State) (key out : BitVector), tablesWellFormed s.rom = true → key.length = 10 →
    out.length = 8 →
    ∃ block, block.length = 8 ∧
      exec (.encrypt key block) s = .next { s with responses := s.responses ++
        [BitVec.ofNat 32 (toInteger out)] } ∧
      ∀ block', block'.length = 8 →
        exec (.encrypt key block') s = exec (.encrypt key block) s → block' = block) ∧
  (decode 0xCA080400#32 = .ok (.encrypt (bits "1010000010") (bits "00000001")) ∧
    ∀ s : State, s.rom = defaultTables →
      exec (.encrypt (bits "1010000010") (bits "00000001")) s
        = .next { s with responses := s.responses ++ [0x00000081#32] })

/-- DECRYPT (`44_commands.md` R154).  The example's values rest on the
contents of `20_memory.md` R41, which the spec marks as not from the source (log 2). -/
def Obligations.DecryptUndoesEncrypt : Prop :=
  (∀ (s : State) (key block : BitVector), tablesWellFormed s.rom = true → key.length = 10 →
    block.length = 8 →
    ∃ ks v, keySchedule s.rom key = .ok ks ∧ cipher s.rom block ks.key1 ks.key2 .decrypt = .ok v ∧
      v.out.length = 8 ∧
      exec (.decrypt key block) s = .next { s with responses := s.responses ++
        [BitVec.ofNat 32 ((0 <<< 28) ||| toInteger v.out)] } ∧
      exec (.encrypt key v.out) s = .next { s with responses := s.responses ++
        [BitVec.ofNat 32 (toInteger block)] }) ∧
  (∀ (s : State) (key block : BitVector), tablesWellFormed s.rom = true → key.length = 10 →
    block.length = 8 →
    ∃ out, out.length = 8 ∧
      exec (.encrypt key block) s = .next { s with responses := s.responses ++
        [BitVec.ofNat 32 (toInteger out)] } ∧
      exec (.decrypt key out) s = .next { s with responses := s.responses ++
        [BitVec.ofNat 32 (toInteger block)] }) ∧
  (∀ w : Word, w &&& 0xF00003FF#32 = 0xD0000000#32 →
    ∃ key block, fromInteger (field w 27 18) 10 = .ok key ∧ fromInteger (field w 17 10) 8 = .ok block ∧
      key.length = 10 ∧ block.length = 8 ∧ decode w = .ok (.decrypt key block)) ∧
  (∀ (s : State) (w : Word) (rest : List Word), tablesWellFormed s.rom = true →
    s.requests = w :: rest → field w 31 30 = 3 → field w 9 0 ≠ 0 →
    step s = .next { s with requests := rest, responses := s.responses ++ [0x50000000#32] }) ∧
  (decode 0xDA0A0400#32 = .ok (.decrypt (bits "1010000010") (bits "10000001")) ∧
    ∀ s : State, s.rom = defaultTables →
      exec (.decrypt (bits "1010000010") (bits "10000001")) s
        = .next { s with responses := s.responses ++ [0x00000001#32] })

/-! ## The BitVector utilities -/

/-- `parse` (`40_bitvector.md` R90) and the text of a result (`30_encoding.md` R76): `parse` accepts
exactly the texts of `0` and `1`, keeps their order, and reports the first other character; `toText`
is its inverse, character by character. -/
def Obligations.ParseReadsBinaryTextInOrder : Prop :=
  (∀ (v : BitVector) (i : Nat), (toText v)[i]? = v[i]?.map fun b => if b then '1' else '0') ∧
  (∀ (text : Text) (v : BitVector), parse text = .ok v ↔ text = toText v) ∧
  (∀ (v : BitVector) (c : Char) (rest : Text), c ≠ '0' → c ≠ '1' →
    parse (toText v ++ c :: rest) = .error (.raise .invalidInput (some v.length))) ∧
  (∀ text : Text, (∃ v, text = toText v) ∨
    ∃ v c rest, c ≠ '0' ∧ c ≠ '1' ∧ text = toText v ++ c :: rest) ∧
  (∀ (text : Text) (v : BitVector), parse text = .ok v → v.length = text.length) ∧
  parse "1010000010".toList
    = .ok [true, false, true, false, false, false, false, false, true, false] ∧
  parse "10a1".toList = .error (.raise .invalidInput (some 2)) ∧ parse [] = .ok []

/-- `xor` (`40_bitvector.md` R91). -/
def Obligations.XorIsElementWise : Prop :=
  (∀ a b : BitVector, a.length ≠ b.length → xorBits a b = .error (.raise .lengthMismatch none)) ∧
  (∀ a b : BitVector, a.length = b.length →
    ∃ r, xorBits a b = .ok r ∧ r.length = a.length ∧
      (∀ (i : Nat) (x y : Bool), a[i]? = some x → b[i]? = some y → r[i]? = some (x ^^ y)) ∧
      xorBits r b = .ok a ∧ xorBits b a = .ok r) ∧
  (∀ a : BitVector, xorBits a a = .ok (List.replicate a.length false) ∧
    xorBits a (List.replicate a.length false) = .ok a) ∧
  xorBits [] [] = .ok [] ∧
  xorBits (bits "00101000") (bits "10100100") = .ok (bits "10001100")

/-- `permute` (`40_bitvector.md` R92): a gather.  Refusing an index that is not valid is the treatment of
`93_implementation_defined.md` U2. -/
def Obligations.PermuteIsAGather : Prop :=
  (∀ (v : BitVector) (indices : List Nat), (∀ i ∈ indices, i < v.length) →
    ∃ r, permute v indices = .ok r ∧ r.length = indices.length ∧
      ∀ i j : Nat, indices[i]? = some j → r[i]? = v[j]?) ∧
  (∀ (v : BitVector) (indices : List Nat), (∃ i ∈ indices, v.length ≤ i) →
    permute v indices = .error .badIndex) ∧
  (∀ v : BitVector, permute v (List.range v.length) = .ok v) ∧
  permute (bits "1101") [3, 0, 1, 2, 1, 2, 3, 0] = .ok (bits "11101011")

/-- `split` and `merge` (`40_bitvector.md` R93, R94). -/
def Obligations.SplitAndMergeAreInverse : Prop :=
  (∀ v : BitVector, v.length % 2 ≠ 0 → split v = .error (.raise .lengthMismatch none)) ∧
  (∀ v : BitVector, v.length % 2 = 0 →
    ∃ a b, split v = .ok (a, b) ∧ a.length = v.length / 2 ∧ b.length = v.length / 2 ∧
      (∀ i, i < v.length / 2 → a[i]? = v[i]? ∧ b[i]? = v[v.length / 2 + i]?) ∧ merge a b = v) ∧
  (∀ a b : BitVector, (merge a b).length = a.length + b.length ∧
    (∀ i, i < a.length → (merge a b)[i]? = a[i]?) ∧ (∀ i, (merge a b)[a.length + i]? = b[i]?) ∧
    (a.length = b.length → split (merge a b) = .ok (a, b)) ∧ merge [] b = b ∧ merge a [] = a) ∧
  split [] = .ok ([], []) ∧
  split (bits "1000001100") = .ok (bits "10000", bits "01100") ∧
  merge (bits "0001") (bits "0100") = bits "00010100"

/-- `rotateLeft` (`40_bitvector.md` R95), on the vectors the rule is about, of length at least 1. -/
def Obligations.RotateLeftIsACircularShift : Prop :=
  (∀ (v : BitVector) (n : Int), 1 ≤ v.length →
    (rotateLeft v n).length = v.length ∧
    (∀ i, i < v.length → (rotateLeft v n)[i]? = v[(i + (n % v.length).toNat) % v.length]?) ∧
    (rotateLeft v n).count true = v.count true ∧
    rotateLeft v (n * v.length) = v ∧
    (∀ m : Int, rotateLeft (rotateLeft v n) m = rotateLeft v (n + m)) ∧
    rotateLeft v (-n) = rotateLeft v (v.length - n)) ∧
  (∀ (b : Bool) (m : Nat) (n : Int), 1 ≤ m →
    rotateLeft (List.replicate m b) n = List.replicate m b) ∧
  rotateLeft (bits "10000") 1 = bits "00001" ∧ rotateLeft (bits "01100") 1 = bits "11000" ∧
  rotateLeft (bits "00001") 2 = bits "00100" ∧ rotateLeft (bits "11000") 2 = bits "00011" ∧
  rotateLeft (bits "10011") 5 = bits "10011"

/-- `toInteger` and `fromInteger` (`40_bitvector.md` R96, R97). -/
def Obligations.IntegersAndBitsConvertBothWays : Prop :=
  (∀ v : BitVector, toInteger v < 2 ^ v.length ∧
    toInteger v
      = ((List.range v.length).map fun i => (v.getD i false).toNat * 2 ^ (v.length - 1 - i)).sum ∧
    fromInteger (toInteger v) v.length = .ok v ∧
    (∀ m, toInteger (List.replicate m false ++ v) = toInteger v)) ∧
  (∀ m, toInteger (List.replicate m false) = 0 ∧ toInteger (List.replicate m true) = 2 ^ m - 1 ∧
    fromInteger 0 m = .ok (List.replicate m false)) ∧
  (∀ n width : Nat, 2 ^ width ≤ n → fromInteger n width = .error (.raise .overflow none)) ∧
  (∀ n width : Nat, n < 2 ^ width →
    ∃ v, fromInteger n width = .ok v ∧ v.length = width ∧ toInteger v = n ∧
      ∀ i, i < width → v[i]? = some ((n >>> (width - 1 - i)) % 2 == 1)) ∧
  toInteger (bits "10") = 2 ∧ toInteger (bits "01") = 1 ∧ toInteger (bits "1010000010") = 642 ∧
  fromInteger 2 2 = .ok (bits "10") ∧ fromInteger 1 2 = .ok (bits "01") ∧
  fromInteger 3 2 = .ok (bits "11") ∧ fromInteger 0 2 = .ok (bits "00") ∧
  fromInteger 4 2 = .error (.raise .overflow none) ∧ fromInteger 0 0 = .ok []

/-! ## The table ROM -/

/-- `TablesWellFormed` says of the tables exactly what the rules on each of them say (`20_memory.md` R33
to R38, R40, R42). -/
def Obligations.WellFormedTablesMeetTheConstraints : Prop :=
  ∀ t : Tables, tablesWellFormed t = true ↔
    t.p10Vector.Perm (List.range 10) ∧
    (t.p8Vector.length = 8 ∧ (∀ i ∈ t.p8Vector, i ≤ 9) ∧ t.p8Vector.Pairwise (· ≠ ·)) ∧
    t.ipVector.Perm (List.range 8) ∧
    (t.ipInverseVector.Perm (List.range 8) ∧
      ∀ i < 8, (∃ j, t.ipInverseVector[i]? = some j ∧ t.ipVector[j]? = some i) ∧
        ∃ j, t.ipVector[i]? = some j ∧ t.ipInverseVector[j]? = some i) ∧
    (t.epVector.length = 8 ∧ ∀ i ∈ t.epVector, i ≤ 3) ∧
    t.p4Vector.Perm (List.range 4) ∧
    (∀ b ∈ [t.s0, t.s1], b.length = 4 ∧ ∀ row ∈ b, row.length = 4 ∧ ∀ x ∈ row, x ≤ 3)

/-- The default contents satisfy every constraint (`20_memory.md` section 2; the contents are not the
source's: log 2). -/
def Obligations.DefaultTablesAreWellFormed : Prop := tablesWellFormed defaultTables = true

/-- `IP_VECTOR` and `IP_INVERSE_VECTOR` are inverse gathers (`20_memory.md` R36). -/
def Obligations.InitialPermutationsAreInverse : Prop :=
  ∀ t : Tables, tablesWellFormed t = true →
    t.ipInverseVector.length = 8 ∧ t.ipInverseVector.Perm (List.range 8) ∧
    (∀ v : BitVector, v.length = 8 →
      (∃ u, permute v (romVector t .ip) = .ok u ∧ permute u (romVector t .ipInverse) = .ok v) ∧
      ∃ u, permute v (romVector t .ipInverse) = .ok u ∧ permute u (romVector t .ip) = .ok v) ∧
    ∀ i < 8,
      (∃ j, romVectorEntry t .ipInverse i = some j ∧ romVectorEntry t .ip j = some i) ∧
      ∃ j, romVectorEntry t .ip i = some j ∧ romVectorEntry t .ipInverse j = some i

/-! ## The S-boxes -/

/-- The substitution (`41_sbox.md` R110, R112, R113): the outer bits are the row and the inner bits the
column, first bit the more significant; the result is always two bits; S0 has the left half, S1 the
right half, S0's output first.  The examples' values rest on the contents of `20_memory.md` R41, which
the spec marks as not from the source (log 2). -/
def Obligations.SboxLooksUpOuterRowInnerColumn : Prop :=
  (∀ (t : Tables) (name : SboxName) (b0 b1 b2 b3 : Bool), tablesWellFormed t = true →
    ∃ entry r,
      romSboxEntry t name (2 * b0.toNat + b3.toNat) (2 * b1.toNat + b2.toNat) = some entry ∧
      entry ≤ 3 ∧ sbox t [b0, b1, b2, b3] name = .ok r ∧ r.length = 2 ∧ toInteger r = entry) ∧
  (∀ (t : Tables) (xL xR : BitVector), tablesWellFormed t = true → xL.length = 4 → xR.length = 4 →
    ∃ a b, sbox t xL .s0 = .ok a ∧ sbox t xR .s1 = .ok b ∧ sboxPair t (xL ++ xR) = .ok (a ++ b) ∧
      (a ++ b).length = 4) ∧
  sbox defaultTables (bits "1000") .s0 = .ok (bits "00") ∧
  sboxPair defaultTables (bits "10001100") = .ok (bits "0001")

/-- The whole mapping under the default tables (`41_sbox.md` R111): input, row, column, S0's output,
S1's output.  The rule is the spec's own derivation from contents it marks as not from the source
(log 2). -/
def Obligations.SboxesUnderTheDefaultTables : Prop :=
  ∀ line ∈ [("0000", 0, 0, "01", "00"), ("0001", 1, 0, "11", "10"), ("0010", 0, 1, "00", "01"),
      ("0011", 1, 1, "10", "00"), ("0100", 0, 2, "11", "10"), ("0101", 1, 2, "01", "01"),
      ("0110", 0, 3, "10", "11"), ("0111", 1, 3, "00", "11"), ("1000", 2, 0, "00", "11"),
      ("1001", 3, 0, "11", "10"), ("1010", 2, 1, "10", "00"), ("1011", 3, 1, "01", "01"),
      ("1100", 2, 2, "01", "01"), ("1101", 3, 2, "11", "00"), ("1110", 2, 3, "11", "00"),
      ("1111", 3, 3, "10", "11")],
    (permute (bits line.1) (romVector defaultTables .outer)).map toInteger = .ok line.2.1 ∧
    (permute (bits line.1) (romVector defaultTables .inner)).map toInteger = .ok line.2.2.1 ∧
    sbox defaultTables (bits line.1) .s0 = .ok (bits line.2.2.2.1) ∧
    sbox defaultTables (bits line.1) .s1 = .ok (bits line.2.2.2.2)

/-! ## The key schedule -/

/-- The key schedule binds each working value as its step says (`42_key_schedule.md` R120 to R126), and
the section's example, whose values rest on the contents of `20_memory.md` R41, which the spec marks as
not from the source (log 2). -/
def Obligations.KeyScheduleBindsEveryWorkingValue : Prop :=
  (∀ (t : Tables) (k : BitVector), tablesWellFormed t = true → k.length = 10 →
    ∃ v, keySchedule t k = .ok v ∧ v.k = k ∧
      (v.kP10.length = 10 ∧ (∀ i j : Nat, t.p10Vector[i]? = some j → v.kP10[i]? = k[j]?) ∧
        v.kP10.count true = k.count true) ∧
      (v.kL.length = 5 ∧ v.kR.length = 5 ∧
        ∀ i < 5, v.kL[i]? = v.kP10[i]? ∧ v.kR[i]? = v.kP10[5 + i]?) ∧
      (v.kL1.length = 5 ∧ v.kR1.length = 5 ∧
        ∀ i < 5, v.kL1[i]? = v.kL[(i + 1) % 5]? ∧ v.kR1[i]? = v.kR[(i + 1) % 5]?) ∧
      (v.key1.length = 8 ∧ ∀ i j : Nat, t.p8Vector[i]? = some j → v.key1[i]? = (v.kL1 ++ v.kR1)[j]?) ∧
      (v.kL2.length = 5 ∧ v.kR2.length = 5 ∧
        ∀ i < 5, v.kL2[i]? = v.kL1[(i + 2) % 5]? ∧ v.kR2[i]? = v.kR1[(i + 2) % 5]? ∧
          v.kL2[i]? = v.kL[(i + 3) % 5]? ∧ v.kR2[i]? = v.kR[(i + 3) % 5]?) ∧
      (v.key2.length = 8 ∧ ∀ i j : Nat, t.p8Vector[i]? = some j → v.key2[i]? = (v.kL2 ++ v.kR2)[j]?)) ∧
  keySchedule defaultTables (bits "1010000010") = .ok
    { k := bits "1010000010", kP10 := bits "1000001100", kL := bits "10000", kR := bits "01100",
      kL1 := bits "00001", kR1 := bits "11000", key1 := bits "10100100", kL2 := bits "00100",
      kR2 := bits "00011", key2 := bits "01000011" }

/-- The closed form of the key schedule under the default tables (`42_key_schedule.md` R127, the spec's own
derivation from contents it marks as not from the source: log 2). -/
def Obligations.KeyScheduleClosedForm : Prop :=
  (∀ k0 k1 k2 k3 k4 k5 k6 k7 k8 k9 : Bool,
    keySchedule defaultTables [k0, k1, k2, k3, k4, k5, k6, k7, k8, k9] = .ok
      { k := [k0, k1, k2, k3, k4, k5, k6, k7, k8, k9],
        kP10 := [k2, k4, k1, k6, k3, k9, k0, k8, k7, k5],
        kL := [k2, k4, k1, k6, k3], kR := [k9, k0, k8, k7, k5],
        kL1 := [k4, k1, k6, k3, k2], kR1 := [k0, k8, k7, k5, k9],
        key1 := [k0, k6, k8, k3, k7, k2, k9, k5],
        kL2 := [k6, k3, k2, k4, k1], kR2 := [k7, k5, k9, k0, k8],
        key2 := [k7, k2, k5, k4, k9, k1, k8, k0] }) ∧
  (∀ b : Bool, ∃ v, keySchedule defaultTables (List.replicate 10 b) = .ok v ∧
    v.key1 = List.replicate 8 b ∧ v.key2 = List.replicate 8 b)

/-- Whatever the tables, the key schedule only moves bits (`42_key_schedule.md` R128, the spec's own
derivation): every round-key bit
is one master-key bit, the schedule is linear over exclusive or, and all-zero and all-one keys give
all-zero and all-one pairs. -/
def Obligations.KeyScheduleOnlyMovesBits : Prop :=
  ∀ t : Tables, tablesWellFormed t = true →
    (∃ src1 src2 : List Nat, src1.length = 8 ∧ src2.length = 8 ∧
      (∀ j ∈ src1, j < 10) ∧ (∀ j ∈ src2, j < 10) ∧
      ∀ k : BitVector, k.length = 10 → ∃ v, keySchedule t k = .ok v ∧
        v.key1.length = 8 ∧ v.key2.length = 8 ∧
        (∀ i j : Nat, src1[i]? = some j → v.key1[i]? = k[j]?) ∧
        (∀ i j : Nat, src2[i]? = some j → v.key2[i]? = k[j]?)) ∧
    (∀ k k' : BitVector, k.length = 10 → k'.length = 10 →
      ∃ x v v' vx, xorBits k k' = .ok x ∧ keySchedule t k = .ok v ∧ keySchedule t k' = .ok v' ∧
        keySchedule t x = .ok vx ∧ xorBits v.key1 v'.key1 = .ok vx.key1 ∧
        xorBits v.key2 v'.key2 = .ok vx.key2) ∧
    (∀ b : Bool, ∃ v, keySchedule t (List.replicate 10 b) = .ok v ∧
      v.key1 = List.replicate 8 b ∧ v.key2 = List.replicate 8 b)

/-! ## The cipher -/

/-- The cipher binds each working value as its step says (`43_feistel.md` R130 to R141), the mode changes
nothing but the order of the round keys, and the section's running example, whose values rest on the
contents of `20_memory.md` R41, which the spec marks as not from the source (log 2). -/
def Obligations.CipherBindsEveryWorkingValue : Prop :=
  (∀ (t : Tables) (b key1 key2 : BitVector) (mode : Mode), tablesWellFormed t = true →
    b.length = 8 → key1.length = 8 → key2.length = 8 →
    ∃ v, cipher t b key1 key2 mode = .ok v ∧ v.b = b ∧
      (mode = .encrypt → v.kA = key1 ∧ v.kB = key2) ∧
      (mode = .decrypt → v.kA = key2 ∧ v.kB = key1) ∧
      (v.ipb.length = 8 ∧ ∀ i j : Nat, t.ipVector[i]? = some j → v.ipb[i]? = b[j]?) ∧
      (v.l0.length = 4 ∧ v.r0.length = 4 ∧
        ∀ i < 4, v.l0[i]? = v.ipb[i]? ∧ v.r0[i]? = v.ipb[4 + i]?) ∧
      RoundSpec t v.l0 v.r0 v.kA v.round1 ∧
      v.l1 = v.r0 ∧ v.r1 = v.round1.newR ∧
      RoundSpec t v.l1 v.r1 v.kB v.round2 ∧
      v.newR2 = v.round2.newR ∧
      v.pre = v.newR2 ++ v.r1 ∧
      (v.out.length = 8 ∧ ∀ i j : Nat, t.ipInverseVector[i]? = some j → v.out[i]? = v.pre[j]?)) ∧
  (∀ (t : Tables) (b key1 key2 : BitVector),
    cipher t b key1 key2 .decrypt = cipher t b key2 key1 .encrypt) ∧
  cipher defaultTables (bits "00000001") (bits "10100100") (bits "01000011") .encrypt = .ok
    { b := bits "00000001", kA := bits "10100100", kB := bits "01000011", ipb := bits "00000100",
      l0 := bits "0000", r0 := bits "0100",
      round1 := { e := bits "00101000", x := bits "10001100", xL := bits "1000", xR := bits "1100",
                  so := bits "0001", f := bits "0100", newR := bits "0100" },
      l1 := bits "0100", r1 := bits "0100",
      round2 := { e := bits "00101000", x := bits "01101011", xL := bits "0110", xR := bits "1011",
                  so := bits "1001", f := bits "0101", newR := bits "0001" },
      newR2 := bits "0001", pre := bits "00010100", out := bits "10000001" }

/-- The round trip (`43_feistel.md` R144): for every pair of round keys, whether or not it came from a key
schedule, each mode undoes the other on every block, so each is a bijection on the 256 blocks; and so
for every master key.  That it "holds for **every** well-formed `TABLES`, not only the default", and "So
each mode is a bijection on the 256 blocks, for each key pair", are the spec's own inference in that
rule ("[derived: let `C` be the encryption of `B` ...]"). -/
def Obligations.CipherRoundTrip : Prop :=
  ∀ t : Tables, tablesWellFormed t = true →
    (∀ (key1 key2 b : BitVector), key1.length = 8 → key2.length = 8 → b.length = 8 →
      (∃ c d, cipher t b key1 key2 .encrypt = .ok c ∧ cipher t c.out key1 key2 .decrypt = .ok d ∧
        d.out = b) ∧
      (∃ c d, cipher t b key1 key2 .decrypt = .ok c ∧ cipher t c.out key1 key2 .encrypt = .ok d ∧
        d.out = b)) ∧
    (∀ (key1 key2 : BitVector) (mode : Mode), key1.length = 8 → key2.length = 8 →
      (∀ b b' v v', b.length = 8 → b'.length = 8 → cipher t b key1 key2 mode = .ok v →
        cipher t b' key1 key2 mode = .ok v' → v.out = v'.out → b = b') ∧
      (∀ c : BitVector, c.length = 8 →
        ∃ b v, b.length = 8 ∧ cipher t b key1 key2 mode = .ok v ∧ v.out = c)) ∧
    (∀ (k b : BitVector), k.length = 10 → b.length = 8 →
      ∃ ks c d, keySchedule t k = .ok ks ∧ cipher t b ks.key1 ks.key2 .encrypt = .ok c ∧
        cipher t c.out ks.key1 ks.key2 .decrypt = .ok d ∧ d.out = b)

/-- Equal round keys (`43_feistel.md` R145): both modes are one mapping, which is its own inverse; under
the default tables eight master keys have equal round keys, the all-zero and the all-one key among
them.  The rule is in part the spec's own derivation, and the eight keys rest on contents it marks as not
from the source (log 2). -/
def Obligations.EqualRoundKeysMakeTheModesEqual : Prop :=
  (∀ (t : Tables) (key b : BitVector), tablesWellFormed t = true → key.length = 8 → b.length = 8 →
    ∃ v u, cipher t b key key .encrypt = .ok v ∧ cipher t b key key .decrypt = .ok v ∧
      v.kA = key ∧ v.kB = key ∧
      cipher t v.out key key .encrypt = .ok u ∧ u.out = b) ∧
  (∀ k : BitVector, k.length = 10 →
    ∃ ks, keySchedule defaultTables k = .ok ks ∧
      (ks.key1 = ks.key2 ↔
        k ∈ [bits "0000000000", bits "0001100000", bits "0110001000", bits "0111101000",
          bits "1000010111", bits "1001110111", bits "1110011111", bits "1111111111"]))

/-! ## Errors and the front end -/

/-- Which statuses can occur (`60_exceptions.md` R178, the spec's own derivation): 0, 3 and 5 from a request word, 0 once the decoder
has returned an operation; 0, 1 and 3 from the text front end; 2 and 4 never. -/
def Obligations.StatusesThatOccur : Prop :=
  (∀ (s : State) (w : Word) (rest : List Word), tablesWellFormed s.rom = true →
    s.requests = w :: rest →
    ∃ rsp, step s = .next { s with requests := rest, responses := s.responses ++ [rsp] } ∧
      (statusField rsp = 0 ∨ statusField rsp = 3 ∨ statusField rsp = 5) ∧
      (∀ i, decode w = .ok i → statusField rsp = 0)) ∧
  (∀ (s : State) (keyText blockText modeText : Option Text), tablesWellFormed s.rom = true →
    ∃ rsp, frontEndCall keyText blockText modeText s
        = .next { s with responses := s.responses ++ [rsp] } ∧
      (statusField rsp = 0 ∨ statusField rsp = 1 ∨ statusField rsp = 3))

/-- The text front end (`44_commands.md` R157): well-formed texts are the format B request the engine is
given at once; otherwise the first check that fails, in the order key, block, mode, is the response
and no request reaches the engine; an omitted operand takes its default.  That the request is answered
at once with the waiting requests untouched, and that `none` is an omitted operand, is the model's
choice (log 10).  The examples' responses rest on
the contents of `20_memory.md` R41, which the spec marks as not from the source (log 2). -/
def Obligations.FrontEndChecksKeyThenBlockThenMode : Prop :=
  (∀ (s : State) (k b : BitVector), tablesWellFormed s.rom = true → k.length = 10 → b.length = 8 →
    (∃ rsp, engine s.rom (BitVec.ofNat 32 ((3 <<< 30) ||| (0 <<< 28) ||| (toInteger k <<< 18) |||
        (toInteger b <<< 10))) = some rsp ∧
      frontEndCall (some (toText k)) (some (toText b)) (some "encrypt".toList) s
        = .next { s with responses := s.responses ++ [rsp] }) ∧
    (∃ rsp, engine s.rom (BitVec.ofNat 32 ((3 <<< 30) ||| (1 <<< 28) ||| (toInteger k <<< 18) |||
        (toInteger b <<< 10))) = some rsp ∧
      frontEndCall (some (toText k)) (some (toText b)) (some "decrypt".toList) s
        = .next { s with responses := s.responses ++ [rsp] })) ∧
  (∀ (s : State) (keyText : Text) (blockText modeText : Option Text),
    (¬ ∃ k, k.length = 10 ∧ keyText = toText k) →
    frontEndCall (some keyText) blockText modeText s
      = .next { s with responses := s.responses ++ [0x10000000#32] }) ∧
  (∀ (s : State) (k : BitVector) (blockText : Text) (modeText : Option Text), k.length = 10 →
    (¬ ∃ b, b.length = 8 ∧ blockText = toText b) →
    frontEndCall (some (toText k)) (some blockText) modeText s
      = .next { s with responses := s.responses ++ [0x10000000#32] }) ∧
  (∀ (s : State) (k b : BitVector) (modeText : Text), k.length = 10 → b.length = 8 →
    modeText ≠ "encrypt".toList → modeText ≠ "decrypt".toList →
    frontEndCall (some (toText k)) (some (toText b)) (some modeText) s
      = .next { s with responses := s.responses ++ [0x30000000#32] }) ∧
  (∀ (s : State) (keyText blockText modeText : Option Text),
    frontEndCall keyText blockText modeText s
      = frontEndCall (some (keyText.getD "0000000000".toList)) (some (blockText.getD "00000000".toList))
          (some (modeText.getD "encrypt".toList)) s) ∧
  (frontEndRequest (some "1010000010".toList) (some "00000001".toList) (some "encrypt".toList)
      = .ok 0xCA080400#32 ∧
    frontEndRequest none none none = .ok 0xC0000000#32 ∧
    ∀ s : State, s.rom = defaultTables →
      frontEndCall (some "1010000010".toList) (some "00000001".toList) (some "encrypt".toList) s
        = .next { s with responses := s.responses ++ [0x00000081#32] } ∧
      frontEndCall none none none s
        = .next { s with responses := s.responses ++ [0x000000F0#32] })

/-- Errors are precise (`60_exceptions.md` sections 2 and 4): a request the decoder rejects gets an error
response with zeros below the status, changes nothing else, and the next request is answered as if it
had not been there. -/
def Obligations.ErrorsLeaveNoTrace : Prop :=
  ∀ (s : State) (w w' : Word) (rest : List Word) (stop : Stop),
    tablesWellFormed s.rom = true → s.requests = w :: w' :: rest → decode w = .error stop →
    ∃ e rsp, statusField e ≠ 0 ∧ field e 27 0 = 0 ∧
      step s = .next { s with requests := w' :: rest, responses := s.responses ++ [e] } ∧
      Host.Core.run core 2 s = .next { s with requests := rest, responses := s.responses ++ [e, rsp] } ∧
      step { s with requests := w' :: rest }
        = .next { s with requests := rest, responses := s.responses ++ [rsp] }

/-- A line written for an operation reads back as that operation and assembles to its request word
(`30_encoding.md` section 5; the blanks of a line are log 9's). -/
def Obligations.WrittenLinesAssembleToTheirWords : Prop :=
  ∀ i : Instr, i.wf = true →
    readLine (writeLine i) = some i ∧ assemble (writeLine i) = some (encode i)

/-! ## Runs, instances, reset, the invariant -/

/-- The response is a function of the request word and the tables alone (`10_state.md` R10, the
consequence the spec derives there): it does not
depend on earlier requests and responses, on those to come, or on the instance. -/
def Obligations.ResponseDependsOnRequestAndTablesOnly : Prop :=
  ∀ (s s' : State) (w : Word) (rest rest' : List Word),
    tablesWellFormed s.rom = true → s.rom = s'.rom →
    s.requests = w :: rest → s'.requests = w :: rest' →
    ∃ rsp, step s = .next { s with requests := rest, responses := s.responses ++ [rsp] } ∧
      step s' = .next { s' with requests := rest', responses := s'.responses ++ [rsp] }

/-- A run (`70_reset_and_hazards.md` R199): as many steps as there are requests answer all of them, in
order, one response each, as `Engine` says, and end with nothing else changed. -/
def Obligations.RunAnswersEveryRequestInOrder : Prop :=
  ∀ s : State, tablesWellFormed s.rom = true →
    ∃ rsps, List.Forall₂ (fun w rsp => engine s.rom w = some rsp) s.requests rsps ∧
      Host.Core.run core s.requests.length s
        = .next { s with requests := [], responses := s.responses ++ rsps }

/-- Two requests in the other order get the same two responses in the other order (`20_memory.md`
section 4, R47 (3)). -/
def Obligations.SwappedRequestsGetSwappedResponses : Prop :=
  ∀ (s : State) (w w' : Word) (rest : List Word),
    tablesWellFormed s.rom = true → s.requests = w :: w' :: rest →
    ∃ rsp rsp',
      Host.Core.run core 2 s
        = .next { s with requests := rest, responses := s.responses ++ [rsp, rsp'] } ∧
      Host.Core.run core 2 { s with requests := w' :: w :: rest }
        = .next { s with requests := rest, responses := s.responses ++ [rsp', rsp] }

/-- Engine instances (`10_state.md` R20), as the model's `Fabric` renders them (log 8): there is at least
one; each can step; a step of one takes its next request to its whole response at once, `Engine` of the
shared ROM and that request, or changes nothing when the instance is idle (log 4); an instance that does
not exist is refused (log 8); a step writes neither the shared ROM nor another instance's port; two steps
of different instances commute; and instances with one and the same port step to one and the same
port. -/
def Obligations.InstancesAreIndependent : Prop :=
  1 ≤ Fabric.reset.ports.length ∧
  (∀ (f : Fabric) (i : Nat) (p : Port), tablesWellFormed f.rom = true → f.ports[i]? = some p →
    ∃ g, f.stepAt i = .next g) ∧
  (∀ (f : Fabric) (i : Nat) (req : Word) (rest responses : List Word),
    tablesWellFormed f.rom = true → f.ports[i]? = some ⟨req :: rest, responses⟩ →
    ∃ rsp, engine f.rom req = some rsp ∧
      f.stepAt i = .next { f with ports := f.ports.set i ⟨rest, responses ++ [rsp]⟩ }) ∧
  (∀ (f : Fabric) (i : Nat) (responses : List Word), tablesWellFormed f.rom = true →
    f.ports[i]? = some ⟨[], responses⟩ → f.stepAt i = .next f) ∧
  (∀ (f : Fabric) (i : Nat), f.ports[i]? = none → f.stepAt i = .refused .noSuchEngine) ∧
  (∀ (f g : Fabric) (i : Nat), f.stepAt i = .next g →
    g.rom = f.rom ∧ g.ports.length = f.ports.length ∧
      ∀ n, n ≠ i → g.ports[n]? = f.ports[n]?) ∧
  (∀ (f g h : Fabric) (i j : Nat), i ≠ j → f.stepAt i = .next g → f.stepAt j = .next h →
    ∃ k, g.stepAt j = .next k ∧ h.stepAt i = .next k) ∧
  (∀ (f g h : Fabric) (i j : Nat), f.ports[i]? = f.ports[j]? → f.stepAt i = .next g →
    f.stepAt j = .next h → g.ports[i]? = h.ports[j]?)

/-- After reset the ROM holds its contents, which make an engine, and no response exists (`10_state.md`
section 3; the contents are log 2's, the empty list of requests is log 3's). -/
def Obligations.ResetHoldsTheRomAndNothingElse : Prop :=
  State.reset.rom = defaultTables ∧ tablesWellFormed State.reset.rom = true ∧
    State.reset.responses = [] ∧ State.reset.requests = []

/-- Reset (`70_reset_and_hazards.md` R190): it changes no ROM contents, nothing is outstanding after it,
the first request after it is answered exactly as any other, and every instance is idle.  That it leaves
no requests to come and no responses received is the model's reading (log 11) of a run held as two
lists (log 3). -/
def Obligations.FirstRequestAfterResetIsAnsweredAsAnyOther : Prop :=
  (∀ (s : State) (w : Word), tablesWellFormed s.rom = true →
    s.applyReset.rom = s.rom ∧ s.applyReset.requests = [] ∧ s.applyReset.responses = [] ∧
    ∃ rsp, engine s.rom w = some rsp ∧
      step (s.applyReset.submit w) = .next { rom := s.rom, requests := [], responses := [rsp] } ∧
      ∀ (s' : State) (rest : List Word), s'.rom = s.rom → s'.requests = w :: rest →
        step s' = .next { s' with requests := rest, responses := s'.responses ++ [rsp] }) ∧
  ∀ p ∈ Fabric.reset.ports, p.requests = [] ∧ p.responses = []

/-- The invariant holds at reset.  It rests on the contents of the ROM, which are log 2's, and on the empty
lists, which are log 3's. -/
def Obligations.InvHoldsAtReset : Prop := Inv State.reset

/-- Every step and every use of the front end keeps the invariant: the ROM makes an engine and every
response received keeps the layout of `30_encoding.md` R66 with a status of `60_exceptions.md`
R178. -/
def Obligations.StepKeepsInv : Prop :=
  (∀ s t : State, Inv s → step s = .next t → Inv t) ∧
  (∀ (s t : State) (keyText blockText modeText : Option Text), Inv s →
    frontEndCall keyText blockText modeText s = .next t → Inv t)
end

