-- ==== Sys2Proof/Laws/Bits.lean ====
section
/-! SUPPORT. One lemma per BitVector utility: when it answers, and the length and value of its answer. -/

namespace Sys2Proof.Machine

theorem xor_ok {a b : BitVector} (h : a.length = b.length) :
    xorBits a b = .ok (List.zipWith Bool.xor a b) := by simp [xorBits, h]

/-- A gather with valid indices answers, entry by entry. -/
theorem permute_ok {v : BitVector} {ix : List Nat} (h : ∀ i ∈ ix, i < v.length) :
    permute v ix = .ok (ix.map fun i => v.getD i false) := by
  induction ix with
  | nil => rfl
  | cons i rest ih =>
    have hi : i < v.length := h i (by simp)
    have hr := ih fun j hj => h j (by simp [hj])
    simp [permute, hi, hr, bind, Except.bind, pure, Except.pure]

/-- A gather that answers gives one element for each index, the element the index names. -/
theorem permute_inv {v : BitVector} {ix : List Nat} {r : BitVector} (h : permute v ix = .ok r) :
    (∀ i ∈ ix, i < v.length) ∧ r = ix.map fun i => v.getD i false := by
  induction ix generalizing r with
  | nil => simp_all [permute]
  | cons i rest ih =>
    rw [permute] at h
    split at h
    · cases h
    · next b hb =>
      obtain ⟨hi, -⟩ := List.getElem?_eq_some_iff.mp hb
      cases hp : permute v rest with
      | error e => simp [hp, bind, Except.bind] at h
      | ok q =>
        obtain ⟨hq, rfl⟩ := ih hp
        simp only [hp, bind, Except.bind, pure, Except.pure, Except.ok.injEq] at h
        subst h
        refine ⟨?_, ?_⟩
        · simpa using ⟨hi, hq⟩
        · simp [hb]

theorem permute_length {v : BitVector} {ix : List Nat} {r : BitVector} (h : permute v ix = .ok r) :
    r.length = ix.length := by simp [(permute_inv h).2]

theorem split_ok {v : BitVector} (h : v.length % 2 = 0) :
    split v = .ok (v.take (v.length / 2), v.drop (v.length / 2)) := by simp [split, h]

/-- Splitting undoes merging two vectors of one length. -/
theorem split_merge {a b : BitVector} (h : a.length = b.length) : split (merge a b) = .ok (a, b) := by
  have h2 : (a.length + b.length) / 2 = a.length := by omega
  have h0 : (a.length + b.length) % 2 = 0 := by omega
  simp [split, merge, h0, h2]

@[simp] theorem merge_length (a b : BitVector) : (merge a b).length = a.length + b.length := by
  simp [merge]

theorem rotateLeft_length (v : BitVector) (n : Int) : (rotateLeft v n).length = v.length := by
  simp only [rotateLeft, List.length_append, List.length_drop, List.length_take]
  rcases Nat.eq_zero_or_pos v.length with h | h
  · omega
  · have := Int.emod_lt_of_pos n (show (0 : Int) < v.length by omega)
    omega

@[simp] theorem toInteger_nil : toInteger [] = 0 := rfl

theorem foldl_toInteger (v : BitVector) (r : Nat) :
    v.foldl (fun r b => 2 * r + b.toNat) r = r * 2 ^ v.length + toInteger v := by
  induction v generalizing r with
  | nil => simp
  | cons b v ih =>
    rw [toInteger, List.foldl_cons, List.foldl_cons, ih, ih (2 * 0 + b.toNat), List.length_cons,
      Nat.pow_succ]
    ring

theorem toInteger_cons (b : Bool) (v : BitVector) :
    toInteger (b :: v) = b.toNat * 2 ^ v.length + toInteger v := by
  rw [toInteger, List.foldl_cons, foldl_toInteger]
  simp

/-- A vector's integer value is below two to its length. -/
theorem toInteger_lt (v : BitVector) : toInteger v < 2 ^ v.length := by
  induction v with
  | nil => simp
  | cons b v ih =>
    rw [toInteger_cons, List.length_cons, Nat.pow_succ]
    have : b.toNat ≤ 1 := Bool.toNat_le b
    nlinarith

/-- Vectors of one length with one value are one vector. -/
theorem toInteger_inj {v w : BitVector} (hl : v.length = w.length) (h : toInteger v = toInteger w) :
    v = w := by
  induction v generalizing w with
  | nil => exact (List.length_eq_zero_iff.mp hl.symm).symm
  | cons b v ih =>
    obtain _ | ⟨c, w⟩ := w
    · simp at hl
    have hl' : v.length = w.length := by simpa using hl
    rw [toInteger_cons, toInteger_cons, hl'] at h
    have hv := toInteger_lt v
    have hw := toInteger_lt w
    rw [hl'] at hv
    have hbc : b = c := by
      cases b <;> cases c <;> simp at h ⊢ <;> omega
    subst hbc
    rw [ih hl' (by omega)]

/-- What `fromInteger` answers for a number that fits. -/
theorem fromInteger_ok {n width : Nat} (h : n < 2 ^ width) :
    ∃ v, fromInteger n width = .ok v ∧ v.length = width ∧ toInteger v = n := by
  refine ⟨_, if_pos h, by simp, ?_⟩
  induction width generalizing n with
  | zero => simp at h; simp [h]
  | succ w ih =>
    rw [List.range_succ_eq_map, List.map_cons, toInteger_cons, List.map_map]
    have hlow : (List.range w).map ((fun i => (n >>> (w + 1 - 1 - i)) % 2 == 1) ∘ Nat.succ)
        = (List.range w).map fun i => ((n % 2 ^ w) >>> (w - 1 - i)) % 2 == 1 := by
      refine List.map_congr_left fun i hi => ?_
      have hi : i < w := by simpa using hi
      have e : w + 1 - 1 - Nat.succ i = w - 1 - i := by omega
      simp only [Function.comp, e]
      have := Nat.testBit_mod_two_pow n w (w - 1 - i)
      simp only [Nat.testBit, Nat.and_comm 1, Nat.and_one_is_mod] at this
      have hlt : w - 1 - i < w := by omega
      simp only [hlt, decide_true, Bool.true_and] at this
      have a1 := Nat.mod_two_eq_zero_or_one (n >>> (w - 1 - i))
      have a2 := Nat.mod_two_eq_zero_or_one ((n % 2 ^ w) >>> (w - 1 - i))
      rcases a1 with a1 | a1 <;> rcases a2 with a2 | a2 <;> simp [a1, a2] at this ⊢
    rw [hlow, ih (Nat.mod_lt _ (Nat.two_pow_pos w))]
    simp only [List.length_map, List.length_range, Nat.shiftRight_eq_div_pow, Nat.add_sub_cancel,
      Nat.sub_zero]
    have hd : n / 2 ^ w < 2 := Nat.div_lt_of_lt_mul (by rw [Nat.pow_succ] at h; omega)
    have hm := Nat.div_add_mod n (2 ^ w)
    have : (n / 2 ^ w % 2 == 1).toNat = n / 2 ^ w := by
      generalize n / 2 ^ w = q at hd
      interval_cases q <;> rfl
    rw [this]
    linarith [Nat.mul_comm (2 ^ w) (n / 2 ^ w)]

/-- `fromInteger` answers only for a number that fits, with that number's vector. -/
theorem fromInteger_inv {n width : Nat} {v : BitVector} (h : fromInteger n width = .ok v) :
    n < 2 ^ width ∧ v.length = width ∧ toInteger v = n := by
  by_cases hn : n < 2 ^ width
  · obtain ⟨w, hw, hl, hi⟩ := fromInteger_ok hn
    rw [hw] at h
    cases h
    exact ⟨hn, hl, hi⟩
  · simp [fromInteger, hn] at h

/-- `fromInteger` undoes `toInteger`. -/
theorem fromInteger_toInteger {v : BitVector} {width : Nat} (h : v.length = width) :
    fromInteger (toInteger v) width = .ok v := by
  obtain ⟨w, hw, hl, hi⟩ := fromInteger_ok (h ▸ toInteger_lt v)
  rw [hw, toInteger_inj (hl.trans h.symm) hi]

end Sys2Proof.Machine
end

