-- ==== Sys2Proof/Laws/Rom.lean ====
section
/-! SUPPORT. What `TablesWellFormed` gives, one lemma per table. -/

namespace Sys2Proof.Machine

theorem indexVector_iff {n bound : Nat} {v : List Nat} :
    indexVector n bound v = true ↔ v.length = n ∧ ∀ i ∈ v, i < bound := by
  simp [indexVector]

theorem permutationVector_iff {n : Nat} {v : List Nat} :
    permutationVector n v = true ↔ v.length = n ∧ (∀ i ∈ v, i < n) ∧ v.Nodup := by
  simp [permutationVector, indexVector_iff, and_assoc]

theorem sboxShape_iff {b : List (List Nat)} :
    sboxShape b = true ↔ b.length = 4 ∧ ∀ row ∈ b, row.length = 4 ∧ ∀ x ∈ row, x < 4 := by
  simp only [sboxShape, Bool.and_eq_true, beq_iff_eq, List.all_eq_true, decide_eq_true_eq]
  exact Iff.rfl

/-- An S-box of the right shape has an entry in 0..3 at every row and column in 0..3. -/
theorem sboxShape_entry {b : List (List Nat)} (h : sboxShape b = true) {r c : Nat} (hr : r < 4)
    (hc : c < 4) : ∃ e, (b[r]?.bind fun row => row[c]?) = some e ∧ e < 4 := by
  obtain ⟨hl, hrow⟩ := sboxShape_iff.mp h
  have hr' : r < b.length := by omega
  obtain ⟨hl2, he⟩ := hrow b[r] (List.getElem_mem hr')
  have hc' : c < b[r].length := by omega
  exact ⟨b[r][c], by simp [hr', hc'], he _ (List.getElem_mem hc')⟩

section
variable {t : Tables} (h : tablesWellFormed t = true)
include h

theorem wf_parts :
    permutationVector 10 t.p10Vector = true ∧ indexVector 8 10 t.p8Vector = true ∧ t.p8Vector.Nodup ∧
    permutationVector 8 t.ipVector = true ∧ permutationVector 8 t.ipInverseVector = true ∧
    mutuallyInverse t.ipVector t.ipInverseVector = true ∧ indexVector 8 4 t.epVector = true ∧
    permutationVector 4 t.p4Vector = true ∧ sboxShape t.s0 = true ∧ sboxShape t.s1 = true := by
  simpa [tablesWellFormed, and_assoc] using h

theorem wf_p10 : t.p10Vector.length = 10 ∧ ∀ i ∈ t.p10Vector, i < 10 :=
  ⟨(permutationVector_iff.mp (wf_parts h).1).1, (permutationVector_iff.mp (wf_parts h).1).2.1⟩

theorem wf_p8 : t.p8Vector.length = 8 ∧ ∀ i ∈ t.p8Vector, i < 10 :=
  indexVector_iff.mp (wf_parts h).2.1

theorem wf_ip : t.ipVector.length = 8 ∧ ∀ i ∈ t.ipVector, i < 8 :=
  have p := permutationVector_iff.mp (wf_parts h).2.2.2.1
  ⟨p.1, p.2.1⟩

theorem wf_ipInverse : t.ipInverseVector.length = 8 ∧ ∀ i ∈ t.ipInverseVector, i < 8 :=
  have p := permutationVector_iff.mp (wf_parts h).2.2.2.2.1
  ⟨p.1, p.2.1⟩

theorem wf_ep : t.epVector.length = 8 ∧ ∀ i ∈ t.epVector, i < 4 :=
  indexVector_iff.mp (wf_parts h).2.2.2.2.2.2.1

theorem wf_p4 : t.p4Vector.length = 4 ∧ ∀ i ∈ t.p4Vector, i < 4 :=
  have p := permutationVector_iff.mp (wf_parts h).2.2.2.2.2.2.2.1
  ⟨p.1, p.2.1⟩

theorem wf_sbox (name : SboxName) : sboxShape (romSbox t name) = true := by
  obtain ⟨-, -, -, -, -, -, -, -, h0, h1⟩ := wf_parts h
  cases name
  · exact h0
  · exact h1

end

end Sys2Proof.Machine
end

