-- ==== Sys2Proof/Laws/Cipher.lean ====
section
/-! SUPPORT. The engine's functions answer on a well-formed ROM and operands of the right lengths: one
lemma per function, with the length of everything it binds. -/

namespace Sys2Proof.Machine

@[simp] theorem Except_bind_ok {ε α β : Type} (a : α) (f : α → Except ε β) :
    (Except.ok a >>= f) = f a := rfl

@[simp] theorem Except_bind_error {ε α β : Type} (e : ε) (f : α → Except ε β) :
    ((Except.error e : Except ε α) >>= f) = .error e := rfl

@[simp] theorem Except_pure {ε α : Type} (a : α) : (pure a : Except ε α) = .ok a := rfl

/-- A gather with valid indices answers with one bit for each index. -/
theorem permute_answers {v : BitVector} {ix : List Nat} (h : ∀ i ∈ ix, i < v.length) :
    ∃ r, permute v ix = .ok r ∧ r.length = ix.length :=
  ⟨_, permute_ok h, by simp⟩

theorem split_answers {v : BitVector} {n : Nat} (h : v.length = 2 * n) :
    ∃ a b, split v = .ok (a, b) ∧ a.length = n ∧ b.length = n ∧ v = a ++ b := by
  refine ⟨v.take (v.length / 2), v.drop (v.length / 2), split_ok (by omega), ?_, ?_, ?_⟩
  · simp; omega
  · simp; omega
  · simp

theorem xor_answers {a b : BitVector} {n : Nat} (ha : a.length = n) (hb : b.length = n) :
    ∃ r, xorBits a b = .ok r ∧ r.length = n :=
  ⟨_, xor_ok (ha.trans hb.symm), by simp [ha, hb]⟩

section
variable {t : Tables} (h : tablesWellFormed t = true)
include h

/-- The substitution answers on every 4-bit input (R110, R113). -/
theorem sbox_answers {b : BitVector} (hb : b.length = 4) (name : SboxName) :
    ∃ r, sbox t b name = .ok r ∧ r.length = 2 := by
  obtain ⟨ro, hro, hlo⟩ := permute_answers (v := b) (ix := romVector t .outer)
    (by simp [romVector, outerVector, hb])
  obtain ⟨ri, hri, hli⟩ := permute_answers (v := b) (ix := romVector t .inner)
    (by simp [romVector, innerVector, hb])
  have lo := toInteger_lt ro
  have li := toInteger_lt ri
  rw [hlo] at lo
  rw [hli] at li
  obtain ⟨e, he, hlt⟩ := sboxShape_entry (wf_sbox h name) (r := toInteger ro) (c := toInteger ri) lo li
  obtain ⟨r, hr, hl, -⟩ := fromInteger_ok (n := e) (width := Config.sboxOutBits) hlt
  exact ⟨r, by simp [sbox, hro, hri, romSboxEntry, he, hr], hl⟩

theorem sboxPair_answers {x : BitVector} (hx : x.length = 8) :
    ∃ r, sboxPair t x = .ok r ∧ r.length = 4 := by
  obtain ⟨xL, xR, hs, hl, hr, -⟩ := split_answers (n := 4) hx
  obtain ⟨a, ha, hal⟩ := sbox_answers h hl .s0
  obtain ⟨b, hb, hbl⟩ := sbox_answers h hr .s1
  exact ⟨merge a b, by simp [sboxPair, hs, ha, hb], by simp [hal, hbl]⟩

/-- The key schedule answers on every 10-bit key (R126). -/
theorem keySchedule_answers {k : BitVector} (hk : k.length = 10) :
    ∃ v, keySchedule t k = .ok v ∧ v.key1.length = 8 ∧ v.key2.length = 8 := by
  obtain ⟨hl10, h10⟩ := wf_p10 h
  obtain ⟨hl8, h8⟩ := wf_p8 h
  obtain ⟨p, hp, hpl⟩ := permute_answers (v := k) (ix := romVector t .p10) (by simpa [romVector, hk] using h10)
  have hpl : p.length = 10 := hpl.trans hl10
  obtain ⟨kL, kR, hs, hL, hR, -⟩ := split_answers (n := 5) hpl
  obtain ⟨k1, hk1, hk1l⟩ := permute_answers (v := merge (rotateLeft kL 1) (rotateLeft kR 1))
    (ix := romVector t .p8) (by simpa [rotateLeft_length, hL, hR, romVector] using h8)
  obtain ⟨k2, hk2, hk2l⟩ := permute_answers
    (v := merge (rotateLeft (rotateLeft kL 1) 2) (rotateLeft (rotateLeft kR 1) 2))
    (ix := romVector t .p8) (by simpa [rotateLeft_length, hL, hR, romVector] using h8)
  refine ⟨_, by simp [keySchedule, hp, hs, hk1, hk2]; rfl, ?_, ?_⟩
  · exact hk1l.trans hl8
  · exact hk2l.trans hl8

/-- One round answers on halves of 4 bits and a round key of 8. -/
theorem feistelRound_answers {l r kr : BitVector} (hl : l.length = 4) (hr : r.length = 4)
    (hk : kr.length = 8) : ∃ v, feistelRound t l r kr = .ok v ∧ v.newR.length = 4 := by
  obtain ⟨hle, hep⟩ := wf_ep h
  obtain ⟨hlp, hp4⟩ := wf_p4 h
  obtain ⟨e, he, hel⟩ := permute_answers (v := r) (ix := romVector t .ep) (by simpa [romVector, hr] using hep)
  obtain ⟨x, hx, hxl⟩ := xor_answers (hel.trans hle) hk
  obtain ⟨xL, xR, hs, -, -, -⟩ := split_answers (n := 4) hxl
  obtain ⟨so, hso, hsol⟩ := sboxPair_answers h hxl
  obtain ⟨f, hf, hfl⟩ := permute_answers (v := so) (ix := romVector t .p4) (by simpa [romVector, hsol] using hp4)
  obtain ⟨n, hn, hnl⟩ := xor_answers (hfl.trans hlp) hl
  exact ⟨_, by simp [feistelRound, he, hx, hs, hso, hf, hn]; rfl, hnl⟩

/-- The cipher answers on a block and round keys of 8 bits (R142). -/
theorem cipher_answers {b key1 key2 : BitVector} (hb : b.length = 8) (h1 : key1.length = 8)
    (h2 : key2.length = 8) (mode : Mode) :
    ∃ v, cipher t b key1 key2 mode = .ok v ∧ v.out.length = 8 := by
  obtain ⟨hli, hip⟩ := wf_ip h
  obtain ⟨hlv, hiv⟩ := wf_ipInverse h
  obtain ⟨kA, kB, hkeys, hA, hB⟩ : ∃ kA kB, roundKeys key1 key2 mode = (kA, kB) ∧ kA.length = 8 ∧
      kB.length = 8 := by cases mode <;> exact ⟨_, _, rfl, by assumption, by assumption⟩
  obtain ⟨ipb, hipb, hipl⟩ := permute_answers (v := b) (ix := romVector t .ip) (by simpa [romVector, hb] using hip)
  obtain ⟨l0, r0, hs, hl, hr, -⟩ := split_answers (n := 4) (hipl.trans hli)
  obtain ⟨v1, hv1, hn1⟩ := feistelRound_answers h hl hr hA
  obtain ⟨v2, hv2, hn2⟩ := feistelRound_answers h hr hn1 hB
  obtain ⟨o, ho, hol⟩ := permute_answers (v := merge v2.newR v1.newR) (ix := romVector t .ipInverse)
    (by simpa [romVector, hn1, hn2] using hiv)
  exact ⟨_, by simp [cipher, hkeys, hipb, hs, hv1, hv2, ho]; rfl, hol.trans hlv⟩

theorem keygenResponse_answers {k : BitVector} (hk : k.length = 10) :
    ∃ v, keySchedule t k = .ok v ∧ v.key1.length = 8 ∧ v.key2.length = 8 ∧
      keygenResponse t k = .ok (pairResponse v.key1 v.key2) := by
  obtain ⟨v, hv, h1, h2⟩ := keySchedule_answers h hk
  exact ⟨v, hv, h1, h2, by simp [keygenResponse, hv]⟩

theorem cipherResponse_answers {b key1 key2 : BitVector} (hb : b.length = 8) (h1 : key1.length = 8)
    (h2 : key2.length = 8) (mode : Mode) :
    ∃ v, cipher t b key1 key2 mode = .ok v ∧ v.out.length = 8 ∧
      cipherResponse t key1 key2 b mode = .ok (blockResponse v.out) := by
  obtain ⟨v, hv, ho⟩ := cipher_answers h hb h1 h2 mode
  exact ⟨v, hv, ho, by simp [cipherResponse, hv]⟩

theorem blockOpResponse_answers {b k : BitVector} (hb : b.length = 8) (hk : k.length = 10)
    (mode : Mode) :
    ∃ ks v, keySchedule t k = .ok ks ∧ cipher t b ks.key1 ks.key2 mode = .ok v ∧ v.out.length = 8 ∧
      blockOpResponse t k b mode = .ok (blockResponse v.out) := by
  obtain ⟨ks, hks, h1, h2⟩ := keySchedule_answers h hk
  obtain ⟨v, hv, ho, hr⟩ := cipherResponse_answers h hb h1 h2 mode
  exact ⟨ks, v, hks, hv, ho, by simp [blockOpResponse, hks, hr]⟩

end

end Sys2Proof.Machine
end

