-- ==== Sys2Proof/Laws/Words.lean ====
section
/-! SUPPORT. Words as sums of their fields: request words and response words. -/

namespace Sys2Proof.Machine

theorem field_eq (w : Word) (hi lo : Nat) : field w hi lo = w.toNat / 2 ^ lo % 2 ^ (hi - lo + 1) := by
  simp [field, Nat.shiftRight_eq_div_pow]

/-- A shifted number and one below the shift share no bit, so their union is their sum. -/
theorem shift_or {a b n : Nat} (h : b < 2 ^ n) : (a <<< n) ||| b = a * 2 ^ n + b := by
  rw [← Nat.shiftLeft_add_eq_or_of_lt h, Nat.shiftLeft_eq]

theorem wordK_toNat {key : BitVector} (h : key.length = 10) :
    (wordK key).toNat = 1 * 2 ^ 30 + toInteger key * 2 ^ 18 := by
  have hk := toInteger_lt key
  rw [h] at hk
  have h1 : toInteger key <<< 18 < 2 ^ 30 := by rw [Nat.shiftLeft_eq]; omega
  rw [wordK, shift_or h1, BitVec.toNat_ofNat, Nat.shiftLeft_eq, Nat.mod_eq_of_lt (by omega)]

theorem wordC_toNat {m : Nat} {key1 key2 block : BitVector} (hm : m < 4) (h1 : key1.length = 8)
    (h2 : key2.length = 8) (hb : block.length = 8) :
    (wordC m key1 key2 block).toNat
      = 2 * 2 ^ 30 + m * 2 ^ 28 + toInteger key1 * 2 ^ 20 + toInteger key2 * 2 ^ 12
        + toInteger block * 2 ^ 4 := by
  have l1 := toInteger_lt key1
  have l2 := toInteger_lt key2
  have l3 := toInteger_lt block
  rw [h1] at l1
  rw [h2] at l2
  rw [hb] at l3
  rw [wordC, Nat.or_assoc, Nat.or_assoc, Nat.or_assoc]
  rw [shift_or (a := toInteger key2) (n := 12) (by rw [Nat.shiftLeft_eq]; omega),
    shift_or (a := toInteger key1) (n := 20) (by rw [Nat.shiftLeft_eq]; omega),
    shift_or (a := m) (n := 28) (by rw [Nat.shiftLeft_eq]; omega),
    shift_or (a := 2) (n := 30) (by rw [Nat.shiftLeft_eq]; omega), BitVec.toNat_ofNat,
    Nat.shiftLeft_eq, Nat.mod_eq_of_lt (by omega)]
  omega

theorem wordB_toNat {m : Nat} {key block : BitVector} (hm : m < 4) (hk : key.length = 10)
    (hb : block.length = 8) :
    (wordB m key block).toNat
      = 3 * 2 ^ 30 + m * 2 ^ 28 + toInteger key * 2 ^ 18 + toInteger block * 2 ^ 10 := by
  have l1 := toInteger_lt key
  have l3 := toInteger_lt block
  rw [hk] at l1
  rw [hb] at l3
  rw [wordB, Nat.or_assoc, Nat.or_assoc]
  rw [shift_or (a := toInteger key) (n := 18) (by rw [Nat.shiftLeft_eq]; omega),
    shift_or (a := m) (n := 28) (by rw [Nat.shiftLeft_eq]; omega),
    shift_or (a := 3) (n := 30) (by rw [Nat.shiftLeft_eq]; omega), BitVec.toNat_ofNat,
    Nat.shiftLeft_eq, Nat.mod_eq_of_lt (by omega)]
  omega

/-- A response word as the sum of its fields (R66, R67). -/
theorem response_toNat {status : Nat} {hi lo : BitVector} (hs : status < 16) (hh : hi.length ≤ 8)
    (hl : lo.length ≤ 8) :
    (response status hi lo).toNat = status * 2 ^ 28 + toInteger hi * 2 ^ 8 + toInteger lo := by
  have l1 := lt_of_lt_of_le (toInteger_lt hi) (Nat.pow_le_pow_right (by omega) hh)
  have l2 := lt_of_lt_of_le (toInteger_lt lo) (Nat.pow_le_pow_right (by omega) hl)
  rw [response, Nat.or_assoc, shift_or (a := toInteger hi) (n := 8) (by omega),
    shift_or (a := status) (n := 28) (by omega), BitVec.toNat_ofNat, Nat.mod_eq_of_lt (by omega)]
  omega

/-- Every field of a response word (R66). -/
theorem response_fields {status : Nat} {hi lo : BitVector} (hs : status < 16) (hh : hi.length ≤ 8)
    (hl : lo.length ≤ 8) :
    statusField (response status hi lo) = status ∧ zeroField (response status hi lo) = 0 ∧
    hiField (response status hi lo) = toInteger hi ∧ loField (response status hi lo) = toInteger lo ∧
    field (response status hi lo) 27 0 = toInteger hi * 2 ^ 8 + toInteger lo := by
  have l1 := lt_of_lt_of_le (toInteger_lt hi) (Nat.pow_le_pow_right (by omega) hh)
  have l2 := lt_of_lt_of_le (toInteger_lt lo) (Nat.pow_le_pow_right (by omega) hl)
  simp only [statusField, zeroField, hiField, loField, field_eq, response_toNat hs hh hl]
  refine ⟨?_, ?_, ?_, ?_, ?_⟩ <;> omega

end Sys2Proof.Machine
end

