-- ==== Sys2Proof/Laws/Decode.lean ====
section
/-! SUPPORT. What the operand fields and the decoder can answer. -/

namespace Sys2Proof

open Machine

theorem field_lt (w : Word) (hi lo : Nat) : field w hi lo < 2 ^ (hi - lo + 1) :=
  Nat.mod_lt _ (Nat.two_pow_pos _)

theorem opField_lt (w : Word) : opField w < 4 := field_lt w 31 30

theorem modeField_lt (w : Word) : modeField w < 4 := field_lt w 29 28

/-- An operand field always yields a BitVector of its own length (`30_encoding.md` R67). -/
theorem operand_answers (w : Word) {hi lo n : Nat} (h : hi - lo + 1 = n) :
    ∃ v, fromInteger (field w hi lo) n = .ok v ∧ v.length = n ∧ toInteger v = field w hi lo :=
  fromInteger_ok (h ▸ field_lt w hi lo)

/-- The decoder answers an operation with operands of the right lengths, IllegalRequest or UnknownMode,
and nothing else. -/
theorem decode_cases (w : Word) :
    decode w = .error (.raise .illegalRequest none) ∨ decode w = .error (.raise .unknownMode none) ∨
      ∃ i, decode w = .ok i ∧ i.wf = true := by
  obtain ⟨k, hk, hkl, -⟩ := operand_answers w (hi := 27) (lo := 18) (n := 10) rfl
  obtain ⟨k1, hk1, hk1l, -⟩ := operand_answers w (hi := 27) (lo := 20) (n := 8) rfl
  obtain ⟨k2, hk2, hk2l, -⟩ := operand_answers w (hi := 19) (lo := 12) (n := 8) rfl
  obtain ⟨bc, hbc, hbcl, -⟩ := operand_answers w (hi := 11) (lo := 4) (n := 8) rfl
  obtain ⟨bb, hbb, hbbl, -⟩ := operand_answers w (hi := 17) (lo := 10) (n := 8) rfl
  simp only [decode, keyOperand, key1Operand, key2Operand, blockOperandC, blockOperandB, hk, hk1, hk2,
    hbc, hbb, Except_bind_ok, Except_pure]
  split_ifs <;> simp [Instr.wf, isKey, isSubkey, isBlock, Config.keyBits, Config.subkeyBits,
    Config.blockBits, hkl, hk1l, hk2l, hbcl, hbbl]

/-- An operation the decoder answers has operands of the right lengths (`10_state.md` R21). -/
theorem decode_wf {w : Word} {i : Instr} (h : decode w = .ok i) : i.wf = true := by
  obtain h' | h' | ⟨j, h', hj⟩ := decode_cases w
  · rw [h'] at h; cases h
  · rw [h'] at h; cases h
  · rw [h'] at h; cases h; exact hj

end Sys2Proof
end

