-- ==== Sys2Proof/Laws/Masks.lean ====
section
/-! SUPPORT. The masks and patterns of the opcode map, in terms of the fields of a request word. -/

namespace Sys2Proof

open Machine

/-- The part of a number below 2^32 that a mask of its top four bits and its low `k` bits keeps. -/
theorem and_top_and_low {n k : Nat} (hk : k ≤ 28) (hn : n < 2 ^ 32) :
    (n &&& (15 * 2 ^ 28 + (2 ^ k - 1))) = n / 2 ^ 28 * 2 ^ 28 + n % 2 ^ k := by
  have hpow := Nat.pow_le_pow_right (n := 2) (by omega) hk
  have hmask : 15 * 2 ^ 28 + (2 ^ k - 1) = (15 <<< 28) ||| (2 ^ k - 1) := by
    have := Nat.two_pow_pos k
    rw [shift_or (by omega)]
  have htop : n &&& (15 <<< 28) = (n / 2 ^ 28) <<< 28 := by
    apply Nat.eq_of_testBit_eq
    intro i
    simp only [Nat.testBit_and, Nat.testBit_shiftLeft, ← Nat.shiftRight_eq_div_pow, Nat.testBit_shiftRight]
    by_cases hi : 28 ≤ i
    · have hback : 28 + (i - 28) = i := by omega
      simp only [hi, decide_true, Bool.true_and, hback]
      by_cases h2 : i < 32
      · have hset : Nat.testBit 15 (i - 28) = true := by
          have : i - 28 < 4 := by omega
          generalize i - 28 = q at this
          interval_cases q <;> rfl
        simp [hset]
      · have : n.testBit i = false :=
          Nat.testBit_lt_two_pow (lt_of_lt_of_le hn (Nat.pow_le_pow_right (by omega) (by omega)))
        simp [this]
    · simp [hi]
  rw [hmask, Nat.and_or_distrib_left, Nat.and_two_pow_sub_one_eq_mod, htop, shift_or]
  exact lt_of_lt_of_le (Nat.mod_lt _ (Nat.two_pow_pos k)) hpow

/-- A row of the opcode map, its mask the top four and the low `k` bits, in terms of fields. -/
theorem mask_iff_fields {w mask pattern : Word} {k p : Nat} (hk : k ≤ 28)
    (hmask : mask.toNat = 15 * 2 ^ 28 + (2 ^ k - 1)) (hpattern : pattern.toNat = p * 2 ^ 28) :
    w &&& mask = pattern ↔ opField w * 4 + modeField w = p ∧ w.toNat % 2 ^ k = 0 := by
  have hw := w.isLt
  have hand := and_top_and_low hk hw
  have hm : w.toNat % 2 ^ k < 2 ^ 28 :=
    lt_of_lt_of_le (Nat.mod_lt _ (Nat.two_pow_pos k)) (Nat.pow_le_pow_right (by omega) hk)
  rw [← BitVec.toNat_inj, BitVec.toNat_and, hmask, hpattern, hand]
  simp only [opField, modeField, field_eq]
  omega

theorem selects_keygen_iff (w : Word) :
    selects .keygen w = true ↔ opField w = 1 ∧ modeField w = 0 ∧ reservedK w = 0 := by
  have := modeField_lt w
  rw [selects, beq_iff_eq, mask_iff_fields (k := 18) (p := 4) (by omega) (by decide) (by decide)]
  simp only [reservedK, field_eq]
  omega

theorem selects_cipherE_iff (w : Word) :
    selects .cipherE w = true ↔ opField w = 2 ∧ modeField w = 0 ∧ reservedC w = 0 := by
  have := modeField_lt w
  rw [selects, beq_iff_eq, mask_iff_fields (k := 4) (p := 8) (by omega) (by decide) (by decide)]
  simp only [reservedC, field_eq]
  omega

theorem selects_cipherD_iff (w : Word) :
    selects .cipherD w = true ↔ opField w = 2 ∧ modeField w = 1 ∧ reservedC w = 0 := by
  have := modeField_lt w
  rw [selects, beq_iff_eq, mask_iff_fields (k := 4) (p := 9) (by omega) (by decide) (by decide)]
  simp only [reservedC, field_eq]
  omega

theorem selects_encrypt_iff (w : Word) :
    selects .encrypt w = true ↔ opField w = 3 ∧ modeField w = 0 ∧ reservedB w = 0 := by
  have := modeField_lt w
  rw [selects, beq_iff_eq, mask_iff_fields (k := 10) (p := 12) (by omega) (by decide) (by decide)]
  simp only [reservedB, field_eq]
  omega

theorem selects_decrypt_iff (w : Word) :
    selects .decrypt w = true ↔ opField w = 3 ∧ modeField w = 1 ∧ reservedB w = 0 := by
  have := modeField_lt w
  rw [selects, beq_iff_eq, mask_iff_fields (k := 10) (p := 13) (by omega) (by decide) (by decide)]
  simp only [reservedB, field_eq]
  omega

end Sys2Proof
end

