-- ==== Sys2Proof/Laws/PerInstr.lean ====
section
/-! SUPPORT. The fields of an encoded operation, one lemma per constructor: the op field, the mode field,
the reserved bits and each operand's field (`30_encoding.md` R61 to R64). -/

namespace Sys2Proof.Laws.EncodedFields

open Machine

/-- The request word of a well-formed operation holds its operands, its format, its mode and zeros in
the fields of its format. -/
def Statement (i : Instr) : Prop :=
  i.wf = true →
    match i with
    | .keygen key =>
      opField (encode i) = 1 ∧ modeField (encode i) = 0 ∧ reservedK (encode i) = 0 ∧
        field (encode i) 27 18 = toInteger key
    | .cipherE key1 key2 block =>
      opField (encode i) = 2 ∧ modeField (encode i) = 0 ∧ reservedC (encode i) = 0 ∧
        field (encode i) 27 20 = toInteger key1 ∧ field (encode i) 19 12 = toInteger key2 ∧
        field (encode i) 11 4 = toInteger block
    | .cipherD key1 key2 block =>
      opField (encode i) = 2 ∧ modeField (encode i) = 1 ∧ reservedC (encode i) = 0 ∧
        field (encode i) 27 20 = toInteger key1 ∧ field (encode i) 19 12 = toInteger key2 ∧
        field (encode i) 11 4 = toInteger block
    | .encrypt key block =>
      opField (encode i) = 3 ∧ modeField (encode i) = 0 ∧ reservedB (encode i) = 0 ∧
        field (encode i) 27 18 = toInteger key ∧ field (encode i) 17 10 = toInteger block
    | .decrypt key block =>
      opField (encode i) = 3 ∧ modeField (encode i) = 1 ∧ reservedB (encode i) = 0 ∧
        field (encode i) 27 18 = toInteger key ∧ field (encode i) 17 10 = toInteger block

theorem wordC_fields {m : Nat} {key1 key2 block : BitVector} (hm : m < 4) (h1 : key1.length = 8)
    (h2 : key2.length = 8) (hb : block.length = 8) :
    opField (wordC m key1 key2 block) = 2 ∧ modeField (wordC m key1 key2 block) = m ∧
      reservedC (wordC m key1 key2 block) = 0 ∧
      field (wordC m key1 key2 block) 27 20 = toInteger key1 ∧
      field (wordC m key1 key2 block) 19 12 = toInteger key2 ∧
      field (wordC m key1 key2 block) 11 4 = toInteger block := by
  have l1 := toInteger_lt key1
  have l2 := toInteger_lt key2
  have l3 := toInteger_lt block
  rw [h1] at l1
  rw [h2] at l2
  rw [hb] at l3
  simp only [opField, modeField, reservedC, field_eq, wordC_toNat hm h1 h2 hb]
  refine ⟨?_, ?_, ?_, ?_, ?_, ?_⟩ <;> omega

theorem wordB_fields {m : Nat} {key block : BitVector} (hm : m < 4) (hk : key.length = 10)
    (hb : block.length = 8) :
    opField (wordB m key block) = 3 ∧ modeField (wordB m key block) = m ∧
      reservedB (wordB m key block) = 0 ∧ field (wordB m key block) 27 18 = toInteger key ∧
      field (wordB m key block) 17 10 = toInteger block := by
  have l1 := toInteger_lt key
  have l3 := toInteger_lt block
  rw [hk] at l1
  rw [hb] at l3
  simp only [opField, modeField, reservedB, field_eq, wordB_toNat hm hk hb]
  refine ⟨?_, ?_, ?_, ?_, ?_⟩ <;> omega

theorem keygen (key : BitVector) : Statement (.keygen key) := by
  intro h
  have hk : key.length = 10 := by simpa [Instr.wf, isKey, Config.keyBits] using h
  have l1 := toInteger_lt key
  rw [hk] at l1
  simp only [encode, opField, modeField, reservedK, field_eq, wordK_toNat hk]
  refine ⟨?_, ?_, ?_, ?_⟩ <;> omega

theorem cipherE (key1 key2 block : BitVector) : Statement (.cipherE key1 key2 block) := by
  intro h
  simp only [Instr.wf, isSubkey, isBlock, Bool.and_eq_true, beq_iff_eq] at h
  exact wordC_fields (by omega) h.1.1 h.1.2 h.2

theorem cipherD (key1 key2 block : BitVector) : Statement (.cipherD key1 key2 block) := by
  intro h
  simp only [Instr.wf, isSubkey, isBlock, Bool.and_eq_true, beq_iff_eq] at h
  exact wordC_fields (by omega) h.1.1 h.1.2 h.2

theorem encrypt (key block : BitVector) : Statement (.encrypt key block) := by
  intro h
  simp only [Instr.wf, isKey, isBlock, Bool.and_eq_true, beq_iff_eq] at h
  exact wordB_fields (by omega) h.1 h.2

theorem decrypt (key block : BitVector) : Statement (.decrypt key block) := by
  intro h
  simp only [Instr.wf, isKey, isBlock, Bool.and_eq_true, beq_iff_eq] at h
  exact wordB_fields (by omega) h.1 h.2

end Sys2Proof.Laws.EncodedFields
end

