-- ==== Sys2Proof/Laws/State.lean ====
section
/-! SUPPORT. One lemma per field per update of the state. -/

namespace Sys2Proof.Machine

@[simp] theorem respond_rom (s : State) (w : Word) : (s.respond w).rom = s.rom := rfl
@[simp] theorem respond_requests (s : State) (w : Word) : (s.respond w).requests = s.requests := rfl
@[simp] theorem respond_responses (s : State) (w : Word) :
    (s.respond w).responses = s.responses ++ [w] := rfl

@[simp] theorem submit_rom (s : State) (w : Word) : (s.submit w).rom = s.rom := rfl
@[simp] theorem submit_requests (s : State) (w : Word) :
    (s.submit w).requests = s.requests ++ [w] := rfl
@[simp] theorem submit_responses (s : State) (w : Word) : (s.submit w).responses = s.responses := rfl

@[simp] theorem applyReset_rom (s : State) : s.applyReset.rom = s.rom := rfl
@[simp] theorem applyReset_requests (s : State) : s.applyReset.requests = [] := rfl
@[simp] theorem applyReset_responses (s : State) : s.applyReset.responses = [] := rfl

@[simp] theorem withFetchWord_rom (s : State) (nbits w : Nat) : (s.withFetchWord nbits w).rom = s.rom :=
  rfl
@[simp] theorem withFetchWord_requests (s : State) (nbits w : Nat) :
    (s.withFetchWord nbits w).requests = tableWord nbits w :: s.requests := rfl
@[simp] theorem withFetchWord_responses (s : State) (nbits w : Nat) :
    (s.withFetchWord nbits w).responses = s.responses := rfl

@[simp] theorem reset_rom : State.reset.rom = defaultTables := rfl
@[simp] theorem reset_requests : State.reset.requests = [] := rfl
@[simp] theorem reset_responses : State.reset.responses = [] := rfl

@[simp] theorem toPort_requests (s : State) : s.toPort.requests = s.requests := rfl
@[simp] theorem toPort_responses (s : State) : s.toPort.responses = s.responses := rfl
@[simp] theorem toState_rom (t : Tables) (p : Port) : (p.toState t).rom = t := rfl
@[simp] theorem toState_requests (t : Tables) (p : Port) : (p.toState t).requests = p.requests := rfl
@[simp] theorem toState_responses (t : Tables) (p : Port) : (p.toState t).responses = p.responses := rfl

/-- Two responses given one after the other. -/
theorem respond_respond (s : State) (a b : Word) :
    (s.respond a).respond b = { s with responses := s.responses ++ [a, b] } := by
  simp [State.respond]

/-- A step of an instance is the step of its port over the shared ROM, put back in its place. -/
theorem stepAt_of_step {f : Fabric} {i : Nat} {p : Port} {s : State} (hp : f.ports[i]? = some p)
    (hs : step (p.toState f.rom) = .next s) :
    f.stepAt i = .next { rom := s.rom, ports := f.ports.set i s.toPort } := by
  simp only [Fabric.stepAt, hp, hs]

end Sys2Proof.Machine
end

