-- ==== Sys2Proof/Laws/Step.lean ====
section
/-! SUPPORT. What ending an operation, an operation and a step can do, each said once. -/

namespace Sys2Proof.Machine

/-- The end of an operation adds exactly the response its result stands for, or refuses an invalid
index. -/
theorem finish_eq (r : Except Stop Word) (s : State) :
    finish r s = match responseOf r with
      | some rsp => .next (s.respond rsp)
      | none => .refused .badIndex := by
  match r with
  | .ok _ => rfl
  | .error (.raise _ _) => rfl
  | .error .badIndex => rfl

/-- An operation ends with its response on the engine's ROM. -/
theorem exec_eq_finish (i : Instr) (s : State) : exec i s = finish (operationResponse s.rom i) s := by
  cases i <;> rfl

/-- A request is answered as the engine's result says. -/
theorem answer_eq_finish (w : Word) (s : State) : answer w s = finish (engineResult s.rom w) s := by
  unfold answer engineResult
  cases decode w with
  | error e => rfl
  | ok i => exact exec_eq_finish i s

/-- If ending an operation answers a next state, that state is the old one with one response more. -/
theorem finish_next {r : Except Stop Word} {s t : State} (h : finish r s = .next t) :
    ∃ rsp, responseOf r = some rsp ∧ t = s.respond rsp := by
  rw [finish_eq] at h
  cases hr : responseOf r with
  | none => rw [hr] at h; cases h
  | some rsp => rw [hr] at h; cases h; exact ⟨rsp, rfl, rfl⟩

/-- If a step answers a next state, the engine was idle and nothing changed, or it took the next request
and gave the engine's response to it. -/
theorem step_next {s t : State} (h : step s = .next t) :
    tablesWellFormed s.rom = true ∧
      ((s.requests = [] ∧ t = s) ∨
        ∃ w rest rsp, s.requests = w :: rest ∧ engine s.rom w = some rsp ∧
          t = { s with requests := rest, responses := s.responses ++ [rsp] }) := by
  unfold step at h
  by_cases hw : tablesWellFormed s.rom = true
  · rw [if_pos hw] at h
    refine ⟨hw, ?_⟩
    unfold serve at h
    cases hq : s.requests with
    | nil => rw [hq] at h; cases h; exact .inl ⟨rfl, rfl⟩
    | cons w rest =>
      rw [hq] at h
      replace h : answer w { s with requests := rest } = .next t := h
      rw [answer_eq_finish] at h
      obtain ⟨rsp, hr, rfl⟩ := finish_next h
      exact .inr ⟨w, rest, rsp, rfl, by rw [engine, if_pos hw]; exact hr, rfl⟩
  · rw [if_neg hw] at h; cases h

/-- On a well-formed ROM every operation with operands of the right lengths has an OK response
(`60_exceptions.md` R178). -/
theorem operationResponse_answers {t : Tables} (h : tablesWellFormed t = true) {i : Instr}
    (hi : i.wf = true) :
    ∃ hiV loV : BitVector, hiV.length ≤ 8 ∧ loV.length ≤ 8 ∧
      operationResponse t i = .ok (response statusOk hiV loV) := by
  cases i with
  | keygen k =>
    obtain ⟨v, -, h1, h2, hr⟩ := keygenResponse_answers h (k := k) (by simpa [Instr.wf, isKey, Config.keyBits] using hi)
    exact ⟨v.key1, v.key2, by omega, by omega, hr⟩
  | cipherE k1 k2 b | cipherD k1 k2 b =>
    simp only [Instr.wf, isSubkey, isBlock, Bool.and_eq_true, beq_iff_eq] at hi
    obtain ⟨v, -, ho, hr⟩ := cipherResponse_answers h hi.2 hi.1.1 hi.1.2 _
    exact ⟨[], v.out, by simp, by omega, hr⟩
  | encrypt k b | decrypt k b =>
    simp only [Instr.wf, isKey, isBlock, Bool.and_eq_true, beq_iff_eq] at hi
    obtain ⟨ks, v, -, -, ho, hr⟩ := blockOpResponse_answers h hi.2 hi.1 _
    exact ⟨[], v.out, by simp, by omega, hr⟩

/-- On a well-formed ROM the engine gives every word an OK response, IllegalRequest or UnknownMode. -/
theorem engineResult_cases {t : Tables} (h : tablesWellFormed t = true) (w : Word) :
    engineResult t w = .error (.raise .illegalRequest none) ∨
      engineResult t w = .error (.raise .unknownMode none) ∨
      ∃ hiV loV : BitVector, hiV.length ≤ 8 ∧ loV.length ≤ 8 ∧
        engineResult t w = .ok (response statusOk hiV loV) := by
  unfold engineResult
  obtain hd | hd | ⟨i, hd, hi⟩ := decode_cases w
  · exact .inl (by rw [hd]; rfl)
  · exact .inr (.inl (by rw [hd]; rfl))
  · obtain ⟨a, b, ha, hb, hr⟩ := operationResponse_answers h hi
    exact .inr (.inr ⟨a, b, ha, hb, by rw [hd]; exact hr⟩)

/-- A run whose first step answers a next state goes on from there. -/
theorem run_of_step {s t : State} (h : step s = .next t) (n : Nat) :
    Host.Core.run core (n + 1) s = Host.Core.run core n t := by
  have general : ∀ (M : Host.Core) (a b : M.State), M.step a = .next b → M.run (n + 1) a = M.run n b := by
    intro M a b hab
    simp only [Host.Core.run, hab]
  exact general core s t h

/-- A run of no steps stays where it is. -/
theorem run_zero (s : State) : Host.Core.run core 0 s = .next s := rfl

end Sys2Proof.Machine
end

