-- ==== Sys2Proof/Laws/Texts.lean ====
section
/-! SUPPORT. What the text form of a BitVector does to the operations on texts. -/

namespace Sys2Proof.Machine

theorem bit_not_blank (b : Bool) : isBlank (if b then '1' else '0') = false := by cases b <;> decide

theorem toText_eq_nil {v : BitVector} : toText v = [] ↔ v = [] := by simp [toText]

theorem dropWhile_toText {v : BitVector} (h : v ≠ []) : (toText v).dropWhile isBlank = toText v := by
  obtain _ | ⟨b, v⟩ := v
  · exact absurd rfl h
  · simp [toText, bit_not_blank]

/-- A binary text has no blanks around it. -/
theorem trim_toText (v : BitVector) : trim (toText v) = toText v := by
  rcases eq_or_ne v [] with rfl | h
  · rfl
  have hr : (toText v).reverse = toText v.reverse := by simp [toText]
  rw [trim, dropWhile_toText h, hr, dropWhile_toText (by simpa using h)]
  simp [toText]

theorem trim_blank_cons (text : Text) : trim (' ' :: text) = trim text := by simp [trim, isBlank]

/-- A binary text has no comma. -/
theorem splitAtCommas_toText (v : BitVector) : splitAtCommas (toText v) = [toText v] := by
  induction v with
  | nil => rfl
  | cons b v ih =>
    simp only [toText, List.map_cons] at ih ⊢
    cases b <;> simp [splitAtCommas, ih]

/-- A comma ends a piece. -/
theorem splitAtCommas_toText_comma (v : BitVector) (rest : Text) :
    splitAtCommas (toText v ++ ',' :: rest) = toText v :: splitAtCommas rest := by
  induction v with
  | nil => simp [toText, splitAtCommas]
  | cons b v ih =>
    simp only [toText, List.map_cons, List.cons_append] at ih ⊢
    cases b <;> simp [splitAtCommas, ih]

end Sys2Proof.Machine
end

