-- ==== Sys2Proof/Tests/Slice0.lean ====
section
/-! SUPPORT. The model's own tests.  Expected results are those of the specification: `95_test_vectors.md`
and the examples of the rules.  A witness theorem shows that the hypotheses of the statement it is named
after can be met together, clause by clause where there are several. -/

namespace Sys2Proof.Tests

open Machine Safety

/-- The state after reset with words to submit. -/
def withRequests (requests : List Word) : State := { State.reset with requests := requests }

/-- The response an outcome has added last. -/
def lastResponse : Host.Outcome State Fault Refusal → Option Word
  | .next s => s.responses.getLast?
  | .fault _ => none
  | .refused _ => none

/-- The refusal an outcome is. -/
def refusal : Host.Outcome State Fault Refusal → Option Refusal
  | .next _ => none
  | .fault _ => none
  | .refused r => some r

/-- Well-formed contents other than the default ones (`20_memory.md` R33 to R40 leave many). -/
def otherTables : Tables where
  p10Vector := [9, 8, 7, 6, 5, 4, 3, 2, 1, 0]
  p8Vector := [0, 1, 2, 3, 4, 5, 6, 7]
  ipVector := [1, 2, 3, 4, 5, 6, 7, 0]
  ipInverseVector := [7, 0, 1, 2, 3, 4, 5, 6]
  epVector := [0, 0, 0, 0, 3, 3, 3, 3]
  p4Vector := [0, 1, 2, 3]
  s0 := [[0, 0, 0, 0], [0, 0, 0, 0], [0, 0, 0, 0], [3, 3, 3, 3]]
  s1 := [[0, 1, 2, 3], [0, 1, 2, 3], [0, 1, 2, 3], [0, 1, 2, 3]]

/-! ## Well-formedness: one ill-formed term for each check -/

theorem test_wf_keygen_key : (Instr.keygen (bits "101000001")).wf = false := by decide
theorem test_wf_cipherE_key1 :
    (Instr.cipherE (bits "1010010") (bits "01000011") (bits "00000001")).wf = false := by decide
theorem test_wf_cipherE_key2 :
    (Instr.cipherE (bits "10100100") (bits "010000110") (bits "00000001")).wf = false := by decide
theorem test_wf_cipherE_block :
    (Instr.cipherE (bits "10100100") (bits "01000011") []).wf = false := by decide
theorem test_wf_cipherD_key1 :
    (Instr.cipherD (bits "1010010") (bits "01000011") (bits "00000001")).wf = false := by decide
theorem test_wf_cipherD_key2 :
    (Instr.cipherD (bits "10100100") (bits "010000110") (bits "00000001")).wf = false := by decide
theorem test_wf_cipherD_block :
    (Instr.cipherD (bits "10100100") (bits "01000011") []).wf = false := by decide
theorem test_wf_encrypt_key : (Instr.encrypt (bits "10100000100") (bits "00000001")).wf = false := by decide
theorem test_wf_encrypt_block : (Instr.encrypt (bits "1010000010") (bits "0000001")).wf = false := by decide
theorem test_wf_decrypt_key : (Instr.decrypt (bits "10100000100") (bits "00000001")).wf = false := by decide
theorem test_wf_decrypt_block : (Instr.decrypt (bits "1010000010") (bits "0000001")).wf = false := by decide

/-- Contents that fail each part of `TablesWellFormed` (`20_memory.md` R33 to R40). -/
theorem test_tables_refused :
    ([{ defaultTables with p10Vector := [2, 4, 1, 6, 3, 9, 0, 8, 7, 7] },
      { defaultTables with p8Vector := [5, 2, 6, 3, 7, 4, 9, 9] },
      { defaultTables with ipVector := [1, 5, 2, 0, 3, 7, 4, 8] },
      { defaultTables with ipInverseVector := [0, 1, 2, 3, 4, 5, 6, 7] },
      { defaultTables with epVector := [3, 0, 1, 2, 1, 2, 3, 4] },
      { defaultTables with p4Vector := [1, 3, 2] },
      { defaultTables with s0 := [[1, 0, 3, 2], [3, 2, 1, 0], [0, 2, 1, 3], [3, 1, 3, 4]] },
      { defaultTables with s1 := [[0, 1, 2, 3], [2, 0, 1, 3], [3, 0, 1, 0]] }].map
        tablesWellFormed).all (· == false) = true := by decide

theorem test_default_tables_accepted : tablesWellFormed defaultTables = true := by decide
theorem test_other_tables_accepted : tablesWellFormed otherTables = true := by decide

/-! ## Decoding: words of `30_encoding.md` R73 and `95_test_vectors.md` sections 2.6 and 2.7 -/

theorem test_decode_keygen : decode 0x47F40000#32 = .ok (.keygen (bits "0111111101")) := by decide
theorem test_decode_cipherE :
    decode 0x8A443720#32 = .ok (.cipherE (bits "10100100") (bits "01000011") (bits "01110010")) := by decide
theorem test_decode_cipherD :
    decode 0x9E9A7280#32 = .ok (.cipherD (bits "11101001") (bits "10100111") (bits "00101000")) := by decide
theorem test_decode_encrypt :
    decode 0xC25E9400#32 = .ok (.encrypt (bits "0010010111") (bits "10100101")) := by decide
theorem test_decode_decrypt :
    decode 0xDC78A000#32 = .ok (.decrypt (bits "1100011110") (bits "00101000")) := by decide

/-- Each field of each format at its ends: bits 27 and 18 of a key, 27, 20, 19, 12, 11 and 4 of format C,
17 and 10 of a block (`30_encoding.md` R61 to R63). -/
theorem test_decode_field_ends :
    decode 0x48040000#32 = .ok (.keygen (bits "1000000001")) ∧
    decode 0x88181810#32 = .ok (.cipherE (bits "10000001") (bits "10000001") (bits "10000001")) ∧
    decode 0x98181810#32 = .ok (.cipherD (bits "10000001") (bits "10000001") (bits "10000001")) ∧
    decode 0xC8060400#32 = .ok (.encrypt (bits "1000000001") (bits "10000001")) ∧
    decode 0xD8060400#32 = .ok (.decrypt (bits "1000000001") (bits "10000001")) := by decide

theorem test_decode_illegal :
    ([0x00000000#32, 0x0A080400#32, 0x5A080000#32, 0x4A080001#32, 0x4A0A0000#32, 0x8A443011#32,
      0xCA080401#32, 0xCA080600#32, 0xFA080401#32, 0xFFFFFFFF#32].map decode).all
        (· == .error (.raise .illegalRequest none)) = true := by decide

theorem test_decode_unknown_mode :
    ([0xAA443010#32, 0xBA443010#32, 0xEA080400#32, 0xFA080400#32].map decode).all
        (· == .error (.raise .unknownMode none)) = true := by decide

theorem test_encode :
    encode (.keygen (bits "1010000010")) = 0x4A080000#32 ∧
    encode (.cipherE (bits "11111111") (bits "00000000") (bits "00000000")) = 0x8FF00000#32 ∧
    encode (.cipherD (bits "10100100") (bits "01000011") (bits "10000001")) = 0x9A443810#32 ∧
    encode (.encrypt (bits "1111111111") (bits "11111111")) = 0xCFFFFC00#32 ∧
    encode (.decrypt (bits "0010010111") (bits "00110110")) = 0xD25CD800#32 := by decide

theorem test_decodeTableWord :
    decodeTableWord 32 0x40000000 = some (.keygen (bits "0000000000")) ∧
    decodeTableWord 32 0 = none := by decide

/-! ## The utilities (`95_test_vectors.md` section 2.1) -/

theorem test_parse :
    parse "1 0".toList = .error (.raise .invalidInput (some 1)) ∧
    parse "102".toList = .error (.raise .invalidInput (some 2)) := by decide
theorem test_xor :
    xorBits (bits "101") (bits "10") = .error (.raise .lengthMismatch none) ∧
    xorBits (bits "0101") (bits "0100") = .ok (bits "0001") := by decide
theorem test_permute_is_no_scatter :
    permute (bits "00000001") [1, 5, 2, 0, 3, 7, 4, 6] = .ok (bits "00000100") := by decide
theorem test_split : split (bits "101") = .error (.raise .lengthMismatch none) := by decide
theorem test_rotateLeft :
    rotateLeft (bits "10011") (-1) = bits "11001" ∧ rotateLeft (bits "10011") 6 = bits "00111" := by decide
theorem test_fromInteger :
    fromInteger 256 8 = .error (.raise .overflow none) ∧ fromInteger 642 10 = .ok (bits "1010000010") := by
  decide

/-! ## The engine's functions -/

/-- `95_test_vectors.md` section 2.2. -/
theorem test_sboxPair :
    (sboxPair defaultTables (bits "01101011") = .ok (bits "1001")) ∧
    (sboxPair defaultTables (bits "01000001") = .ok (bits "1110")) := by decide

/-- `95_test_vectors.md` section 2.3: single-bit keys. -/
theorem test_keySchedule_single_bits :
    (keySchedule defaultTables (bits "0000100000")).map (fun v => (v.key1, v.key2))
      = .ok (bits "00000000", bits "00010000") ∧
    (keySchedule defaultTables (bits "0000001000")).map (fun v => (v.key1, v.key2))
      = .ok (bits "01000000", bits "00000000") := by decide

/-- `95_test_vectors.md` section 2.4. -/
theorem test_ffun :
    ffun defaultTables (bits "0110") (bits "10100100") = .ok (bits "1111") ∧
    ffun defaultTables (bits "0111") (bits "01000011") = .ok (bits "0001") := by decide

/-! ## One step of each operation (`95_test_vectors.md` sections 2.5, 2.6) -/

theorem test_step_keygen :
    lastResponse (step (withRequests [0x425C0000#32])) = some 0x00002FEA#32 ∧
    lastResponse (step (withRequests [0x40000000#32])) = some 0x00000000#32 := by decide
theorem test_step_cipherE :
    lastResponse (step (withRequests [0x843A4810#32])) = some 0x00000001#32 ∧
    lastResponse (step (withRequests [0x8FF00000#32])) = some 0x0000004B#32 := by decide
theorem test_step_cipherD :
    lastResponse (step (withRequests [0x9FF00000#32])) = some 0x00000050#32 ∧
    lastResponse (step (withRequests [0x9E9A7280#32])) = some 0x0000007C#32 := by decide
theorem test_step_encrypt :
    lastResponse (step (withRequests [0xCA0A5C00#32])) = some 0x00000038#32 ∧
    lastResponse (step (withRequests [0xC003C000#32])) = some 0x00000000#32 := by decide
theorem test_step_decrypt :
    lastResponse (step (withRequests [0xDA08E000#32])) = some 0x00000097#32 ∧
    lastResponse (step (withRequests [0xD25CD800#32])) = some 0x000000A5#32 := by decide
theorem test_step_errors :
    lastResponse (step (withRequests [0xFA080401#32])) = some 0x50000000#32 ∧
    lastResponse (step (withRequests [0xFA080400#32])) = some 0x30000000#32 := by decide

/-- The word placed for the next step is the one it runs, ahead of those that wait. -/
theorem test_withFetchWord :
    lastResponse (step ((withRequests [0x00000000#32]).withFetchWord 32 0x4A080000)) = some 0x0000A443#32 :=
  by decide

/-- An operand of the wrong length meets an invalid index (`93_implementation_defined.md` U2). -/
theorem test_short_key_refused : refusal (exec (.keygen (bits "101")) State.reset) = some .badIndex := by decide

/-! ## The front end, the assembler (`95_test_vectors.md` sections 2.6, 2.7) -/

theorem test_frontEnd_rejects :
    frontEnd defaultTables (some "10100000x0".toList) (some "00000001".toList) (some "encrypt".toList)
      = some 0x10000000#32 ∧
    frontEnd defaultTables (some "101000001".toList) (some "00000001".toList) (some "encode".toList)
      = some 0x10000000#32 ∧
    frontEnd defaultTables (some "1010000010".toList) (some "00000001".toList) (some "Encrypt".toList)
      = some 0x30000000#32 := by decide
theorem test_frontEnd_decrypts :
    frontEnd defaultTables (some "1010000010".toList) (some "10000001".toList) (some "decrypt".toList)
      = some 0x00000001#32 := by decide
theorem test_outputText : outputText 0x00000081#32 = .ok "10000001".toList := by decide
theorem test_exitCode : exitCode 0 = 0 ∧ exitCode 3 = 1 := by decide
theorem test_assemble :
    assemble "CIPHER.D 11101001, 10100111, 00101000 ; a comment".toList = some 0x9E9A7280#32 ∧
    assemble "ENCRYPT".toList = some 0xC0000000#32 := by decide

/-! ## Witnesses: the hypotheses of the statements can be met together -/

theorem witness_DecodeOfEncodeIsTheOperation :
    (Instr.cipherE (bits "11111111") (bits "00000000") (bits "10000001")).wf = true ∧
    (Instr.keygen (bits "1111111111")).wf = true ∧
    (Instr.decrypt (bits "0000000000") (bits "11111111")).wf = true := by decide

theorem witness_EncodeOfDecodeIsTheWord : decode 0xDFFFFC00#32
    = .ok (.decrypt (bits "1111111111") (bits "11111111")) := by decide

/-- A word for each row, and one that no row selects. -/
theorem witness_RowsSelectTheWordsOfTheirOperation :
    selects .keygen 0x4FFC0000#32 = true ∧ selects .cipherE 0x8FFFFFF0#32 = true ∧
    selects .cipherD 0x90000000#32 = true ∧ selects .encrypt 0xCFFFFC00#32 = true ∧
    selects .decrypt 0xD0000000#32 = true ∧
    ([Opcode.keygen, .cipherE, .cipherD, .encrypt, .decrypt].all fun r => !selects r 0xE0000000#32) = true := by
  decide

/-- A word at the edge of each class of `30_encoding.md` R69, each in its class alone. -/
theorem witness_EveryWordIsAnsweredByItsClass :
    requestClasses 0x3FFFFFFF#32 = [true, false, false, false, false, false] ∧
    requestClasses 0x50000000#32 = [false, true, false, false, false, false] ∧
    requestClasses 0x40020000#32 = [false, true, false, false, false, false] ∧
    requestClasses 0xB0000008#32 = [false, false, true, false, false, false] ∧
    requestClasses 0xC0000200#32 = [false, false, false, true, false, false] ∧
    requestClasses 0xA0000010#32 = [false, false, false, false, true, false] ∧
    requestClasses 0xF0000400#32 = [false, false, false, false, true, false] ∧
    requestClasses 0x40040000#32 = [false, false, false, false, false, true] ∧
    tablesWellFormed (withRequests [0x3FFFFFFF#32]).rom = true := by decide

theorem witness_StepRunsTheDecodedOperation :
    tablesWellFormed (withRequests [0x4A080000#32]).rom = true ∧
    (withRequests [0x4A080000#32]).requests = 0x4A080000#32 :: [] ∧
    decode 0x4A080000#32 = .ok (.keygen (bits "1010000010")) := by decide

/-- A decoder error of each kind and a word of each operation, at the head of the requests. -/
theorem witness_StepAnswersAsTheEngineFunction :
    tablesWellFormed (withRequests [0#32]).rom = true ∧ (withRequests [0#32]).requests = 0#32 :: [] ∧
    decode 0#32 = .error (.raise .illegalRequest none) ∧
    decode 0xE0000000#32 = .error (.raise .unknownMode none) ∧
    decode 0x40000000#32 = .ok (.keygen (bits "0000000000")) ∧
    decode 0x80000000#32 = .ok (.cipherE (bits "00000000") (bits "00000000") (bits "00000000")) ∧
    decode 0x90000000#32 = .ok (.cipherD (bits "00000000") (bits "00000000") (bits "00000000")) ∧
    decode 0xC0000000#32 = .ok (.encrypt (bits "0000000000") (bits "00000000")) ∧
    decode 0xD0000000#32 = .ok (.decrypt (bits "0000000000") (bits "00000000")) := by decide

/-- A state for each clause on a step: a word of each row and a word of each kind the decoder raises. -/
theorem witness_ResponsesKeepTheLayout :
    tablesWellFormed (withRequests [0x4FFC0000#32]).rom = true ∧
    (withRequests [0x4FFC0000#32]).requests = 0x4FFC0000#32 :: [] ∧
    decode 0x4FFC0000#32 = .ok (.keygen (bits "1111111111")) ∧
    decode 0x8FFFFFF0#32 = .ok (.cipherE (bits "11111111") (bits "11111111") (bits "11111111")) ∧
    decode 0x9FFFFFF0#32 = .ok (.cipherD (bits "11111111") (bits "11111111") (bits "11111111")) ∧
    decode 0xCFFFFC00#32 = .ok (.encrypt (bits "1111111111") (bits "11111111")) ∧
    decode 0xDFFFFC00#32 = .ok (.decrypt (bits "1111111111") (bits "11111111")) ∧
    decode 0x40000001#32 = .error (.raise .illegalRequest none) ∧
    decode 0xE0000000#32 = .error (.raise .unknownMode none) ∧
    (Instr.encrypt (bits "1111111111") (bits "11111111")).opcode ≠ .keygen ∧
    statusField 0x50000000#32 ≠ 0 := by decide

/-- The error response of each kind (`60_exceptions.md` R170, `30_encoding.md` R66): the clauses on the
kinds no step raises among them. -/
theorem witness_ResponsesKeepTheLayout_kinds :
    errorResponse .invalidInput = 0x10000000#32 ∧ errorResponse .lengthMismatch = 0x20000000#32 ∧
    errorResponse .unknownMode = 0x30000000#32 ∧ errorResponse .overflow = 0x40000000#32 ∧
    errorResponse .illegalRequest = 0x50000000#32 ∧
    lastResponse (halt (.raise .overflow (some 3)) State.reset) = some 0x40000000#32 := by decide

theorem witness_IdleStepChangesNothing :
    tablesWellFormed State.reset.rom = true ∧ State.reset.requests = [] := by decide

theorem witness_IllFormedTablesAreRefused :
    tablesWellFormed ({ State.reset with rom := { defaultTables with p4Vector := [] } } : State).rom = false := by
  decide

theorem witness_OperationsOnlyAddOneResponse :
    lastResponse (exec (.encrypt (bits "1010000010") (bits "00000001")) State.reset) = some 0x00000081#32 := by
  decide

/-- The operands of KEYGEN, a word of its row, and words with a reserved bit at each end. -/
theorem witness_KeygenAnswersTheKeyPair :
    tablesWellFormed otherTables = true ∧ (bits "1010000010").length = 10 ∧
    0x4FFC0000#32 &&& 0xF003FFFF#32 = 0x40000000#32 ∧
    field 0x40000001#32 31 30 = 1 ∧ field 0x40000001#32 17 0 ≠ 0 ∧
    field 0x50000000#32 31 30 = 1 ∧ field 0x50000000#32 29 28 ≠ 0 ∧
    (withRequests [0x50000000#32]).requests = 0x50000000#32 :: [] ∧ State.reset.rom = defaultTables := by decide

/-- Master keys that differ in `K[1]` have one `key1`, in `K[3]` one `key2` (`42_key_schedule.md` R127). -/
theorem test_keygen_drops_key_bits :
    (keySchedule defaultTables (bits "1010000010")).map (·.key1)
      = (keySchedule defaultTables (bits "1110000010")).map (·.key1) ∧
    (keySchedule defaultTables (bits "1010000010")).map (·.key2)
      = (keySchedule defaultTables (bits "1011000010")).map (·.key2) := by decide

theorem witness_CipherEAnswersTheEncryptedBlock :
    tablesWellFormed otherTables = true ∧ (bits "10100100").length = 8 ∧
    0x8FFFFFF0#32 &&& 0xF000000F#32 = 0x80000000#32 ∧
    field 0x80000008#32 31 30 = 2 ∧ field 0x80000008#32 3 0 ≠ 0 ∧
    (withRequests [0x80000008#32]).requests = 0x80000008#32 :: [] ∧ State.reset.rom = defaultTables := by decide

theorem witness_CipherDAnswersTheDecryptedBlock :
    tablesWellFormed otherTables = true ∧ (bits "10000001").length = 8 ∧
    0x9FFFFFF0#32 &&& 0xF000000F#32 = 0x90000000#32 ∧
    field 0x90000001#32 31 30 = 2 ∧ field 0x90000001#32 3 0 ≠ 0 ∧
    (withRequests [0x90000001#32]).requests = 0x90000001#32 :: [] ∧ State.reset.rom = defaultTables := by decide

theorem witness_EncryptAnswersTheEncryptedBlock :
    tablesWellFormed otherTables = true ∧ (bits "1111111111").length = 10 ∧ (bits "11111111").length = 8 ∧
    0xCFFFFC00#32 &&& 0xF00003FF#32 = 0xC0000000#32 ∧
    field 0xC0000200#32 31 30 = 3 ∧ field 0xC0000200#32 9 0 ≠ 0 ∧
    (withRequests [0xC0000200#32]).requests = 0xC0000200#32 :: [] ∧
    lastResponse (exec (.encrypt (bits "1010000010") (bits "00000001")) State.reset)
      = lastResponse (exec (.encrypt (bits "1010000010") (bits "00000001")) State.reset) := by decide

theorem witness_DecryptUndoesEncrypt :
    tablesWellFormed otherTables = true ∧ (bits "0000000000").length = 10 ∧ (bits "10000000").length = 8 ∧
    0xDFFFFC00#32 &&& 0xF00003FF#32 = 0xD0000000#32 ∧
    field 0xD0000001#32 31 30 = 3 ∧ field 0xD0000001#32 9 0 ≠ 0 ∧
    (withRequests [0xD0000001#32]).requests = 0xD0000001#32 :: [] ∧ State.reset.rom = defaultTables := by decide

theorem witness_ParseReadsBinaryTextInOrder :
    parse (toText (bits "10")) = .ok (bits "10") ∧ 'a' ≠ '0' ∧ 'a' ≠ '1' := by decide

theorem witness_XorIsElementWise :
    (bits "101").length ≠ (bits "10").length ∧ (bits "0101").length = (bits "0100").length ∧
    (bits "0101")[3]? = some true ∧ (bits "0100")[3]? = some false := by decide

theorem witness_PermuteIsAGather :
    (∀ i ∈ [3, 0], i < (bits "1101").length) ∧ (∃ i ∈ [3, 4], (bits "1101").length ≤ i) ∧
    [3, 0][1]? = some 0 := by decide

theorem witness_SplitAndMergeAreInverse :
    (bits "101").length % 2 ≠ 0 ∧ (bits "1000001100").length % 2 = 0 ∧
    4 < (bits "1000001100").length / 2 ∧ (bits "10000").length = (bits "01100").length := by decide

theorem witness_RotateLeftIsACircularShift : 1 ≤ (bits "1").length ∧ 4 < (bits "10011").length := by decide

theorem witness_IntegersAndBitsConvertBothWays : 2 ^ 2 ≤ 4 ∧ 3 < 2 ^ 2 ∧ 1 < 2 := by decide

theorem witness_InitialPermutationsAreInverse :
    tablesWellFormed otherTables = true ∧ (bits "00000001").length = 8 := by decide

theorem witness_SboxLooksUpOuterRowInnerColumn :
    tablesWellFormed otherTables = true ∧ (bits "1000").length = 4 ∧ (bits "1100").length = 4 := by decide

theorem witness_KeyScheduleBindsEveryWorkingValue :
    tablesWellFormed otherTables = true ∧ (bits "1010000010").length = 10 ∧
    otherTables.p10Vector[9]? = some 0 ∧ otherTables.p8Vector[7]? = some 7 := by decide

theorem witness_KeyScheduleOnlyMovesBits :
    tablesWellFormed otherTables = true ∧ (bits "1010000010").length = 10 ∧
    (bits "0101010101").length = 10 := by decide

theorem witness_CipherBindsEveryWorkingValue :
    tablesWellFormed otherTables = true ∧ (bits "00000001").length = 8 ∧ (bits "10100100").length = 8 ∧
    (bits "01000011").length = 8 ∧ otherTables.ipVector[7]? = some 0 := by decide

theorem witness_CipherRoundTrip :
    tablesWellFormed otherTables = true ∧ (bits "10100100").length = 8 ∧ (bits "1010000010").length = 10 ∧
    (cipher otherTables (bits "00000001") (bits "10100100") (bits "01000011") .encrypt).toOption.isSome = true :=
  by decide

theorem witness_EqualRoundKeysMakeTheModesEqual :
    tablesWellFormed otherTables = true ∧ (bits "11111111").length = 8 ∧ (bits "0001100000").length = 10 := by
  decide

theorem witness_StatusesThatOccur :
    tablesWellFormed (withRequests [0xFFFFFFFF#32]).rom = true ∧
    (withRequests [0xFFFFFFFF#32]).requests = 0xFFFFFFFF#32 :: [] ∧
    decode 0xC0000000#32 = .ok (.encrypt (bits "0000000000") (bits "00000000")) := by decide

/-- Texts for each clause: accepted; a bad key; a good key and a bad block; both good and a bad mode. -/
theorem witness_FrontEndChecksKeyThenBlockThenMode :
    tablesWellFormed State.reset.rom = true ∧
    textOperand 10 "1010000010".toList = .ok (bits "1010000010") ∧
    textOperand 10 "101000001".toList = .error (.raise .invalidInput none) ∧
    textOperand 8 "0000 001".toList = .error (.raise .invalidInput (some 4)) ∧
    "encode".toList ≠ "encrypt".toList ∧ "encode".toList ≠ "decrypt".toList := by decide

theorem witness_FrontEnd_bad_texts :
    (¬ ∃ k : BitVector, k.length = 10 ∧ "101000001".toList = toText k) ∧
    (¬ ∃ b : BitVector, b.length = 8 ∧ "0000000".toList = toText b) := by
  refine ⟨fun ⟨k, hk, h⟩ => ?_, fun ⟨b, hb, h⟩ => ?_⟩
  · have := congrArg List.length h
    simp [toText, hk] at this
  · have := congrArg List.length h
    simp [toText, hb] at this

theorem witness_ErrorsLeaveNoTrace :
    tablesWellFormed (withRequests [0#32, 0xC25E9400#32]).rom = true ∧
    (withRequests [0#32, 0xC25E9400#32]).requests = 0#32 :: 0xC25E9400#32 :: [] ∧
    decode 0#32 = .error (.raise .illegalRequest none) := by decide

theorem witness_WrittenLinesAssembleToTheirWords :
    (Instr.cipherD (bits "11101001") (bits "10100111") (bits "00101000")).wf = true := by decide

theorem witness_ResponseDependsOnRequestAndTablesOnly :
    tablesWellFormed (withRequests [0xC25E9400#32, 0#32]).rom = true ∧
    (withRequests [0xC25E9400#32, 0#32]).rom
      = ({ withRequests [0xC25E9400#32] with responses := [0x50000000#32] } : State).rom ∧
    (withRequests [0xC25E9400#32, 0#32]).requests = 0xC25E9400#32 :: [0#32] := by decide

theorem witness_RunAnswersEveryRequestInOrder :
    tablesWellFormed (withRequests [0x4A080000#32, 0x8A443720#32]).rom = true := by decide

theorem witness_SwappedRequestsGetSwappedResponses :
    tablesWellFormed (withRequests [0x8A443720#32, 0x8A443970#32]).rom = true ∧
    (withRequests [0x8A443720#32, 0x8A443970#32]).requests = 0x8A443720#32 :: 0x8A443970#32 :: [] := by decide

/-- Two instances with one request each. -/
def twoInstances : Fabric :=
  { rom := defaultTables, ports := [⟨[0x4A080000#32], []⟩, ⟨[0xCA080400#32], []⟩] }

/-- The ports of an outcome. -/
def portsAfter : Host.Outcome Fabric Fault Refusal → Option (List Port)
  | .next f => some f.ports
  | .fault _ => none
  | .refused _ => none

/-- One idle instance, after one request. -/
def idleInstance : Fabric := { rom := defaultTables, ports := [⟨[], [0x50000000#32]⟩] }

/-- The clauses on an idle instance and on one that does not exist. -/
theorem witness_InstancesAreIndependent_idle :
    tablesWellFormed idleInstance.rom = true ∧ idleInstance.ports[0]? = some ⟨[], [0x50000000#32]⟩ ∧
    portsAfter (idleInstance.stepAt 0) = some [⟨[], [0x50000000#32]⟩] ∧ idleInstance.ports[1]? = none := by
  decide

theorem witness_InstancesAreIndependent :
    tablesWellFormed twoInstances.rom = true ∧ twoInstances.ports[0]? = some ⟨[0x4A080000#32], []⟩ ∧
    portsAfter (twoInstances.stepAt 0) = some [⟨[], [0x0000A443#32]⟩, ⟨[0xCA080400#32], []⟩] ∧
    portsAfter (twoInstances.stepAt 1) = some [⟨[0x4A080000#32], []⟩, ⟨[], [0x00000081#32]⟩] := by decide

theorem witness_FirstRequestAfterResetIsAnsweredAsAnyOther :
    tablesWellFormed (withRequests [0xC0000000#32]).rom = true ∧
    (withRequests [0xC0000000#32]).requests = 0xC0000000#32 :: [] := by decide

theorem witness_StepKeepsInv :
    Inv (withRequests [0x5A080000#32]) ∧
    lastResponse (step (withRequests [0x5A080000#32])) = some 0x50000000#32 ∧
    lastResponse (frontEndCall none none none State.reset) = some 0x000000F0#32 := by
  refine ⟨⟨by decide, by simp [withRequests]⟩, by decide, by decide⟩

end Sys2Proof.Tests
end

section
/-! PROOFS. What a step does on a well-formed ROM, said forwards, and the instances of the `Fabric`
(`10_state.md` R20; `44_commands.md` R156). -/

namespace Sys2Proof.Machine

/-- An engine exists for a well-formed ROM: it answers every word. -/
theorem engine_answers {t : Tables} (h : tablesWellFormed t = true) (w : Word) :
    ∃ rsp, engine t w = some rsp := by
  rw [engine, if_pos h]
  obtain he | he | ⟨_, _, _, _, he⟩ := engineResult_cases h w <;> rw [he] <;> exact ⟨_, rfl⟩

/-- A step with no request to take changes nothing. -/
theorem step_of_idle {s : State} (hw : tablesWellFormed s.rom = true) (hq : s.requests = []) :
    step s = .next s := by
  rw [step, if_pos hw, serve, hq]

/-- A step with a request to take gives the engine's response to it. -/
theorem step_of_request {s : State} {w rsp : Word} {rest : List Word}
    (hw : tablesWellFormed s.rom = true) (hq : s.requests = w :: rest)
    (he : engine s.rom w = some rsp) :
    step s = .next { s with requests := rest, responses := s.responses ++ [rsp] } := by
  rw [engine, if_pos hw] at he
  rw [step, if_pos hw, serve, hq]
  dsimp only
  rw [answer_eq_finish, finish_eq, he]
  rfl

/-- On a well-formed ROM every step answers a next state. -/
theorem step_answers {s : State} (hw : tablesWellFormed s.rom = true) : ∃ t, step s = .next t := by
  cases hq : s.requests with
  | nil => exact ⟨s, step_of_idle hw hq⟩
  | cons w rest =>
    obtain ⟨rsp, he⟩ := engine_answers hw w
    exact ⟨_, step_of_request hw hq he⟩

/-- No step writes the ROM. -/
theorem step_rom {s t : State} (h : step s = .next t) : t.rom = s.rom := by
  obtain ⟨-, ⟨-, rfl⟩ | ⟨_, _, _, -, -, rfl⟩⟩ := step_next h <;> rfl

@[simp] theorem toPort_toState (t : Tables) (p : Port) : (p.toState t).toPort = p := rfl

/-- An instance that does not exist is refused (log 8). -/
theorem stepAt_of_absent {f : Fabric} {i : Nat} (hp : f.ports[i]? = none) :
    f.stepAt i = .refused .noSuchEngine := by
  simp only [Fabric.stepAt, hp]

/-- A step of an instance puts its port back, stepped, and leaves the shared ROM as it was. -/
theorem stepAt_of_port_step {f : Fabric} {i : Nat} {p : Port} {s : State} (hp : f.ports[i]? = some p)
    (hs : step (p.toState f.rom) = .next s) :
    f.stepAt i = .next { f with ports := f.ports.set i s.toPort } := by
  rw [stepAt_of_step hp hs, step_rom hs, toState_rom]

/-- If a step of an instance answers a next fabric, the instance exists, its port stepped over the shared
ROM, and nothing but that port is replaced. -/
theorem stepAt_next {f g : Fabric} {i : Nat} (h : f.stepAt i = .next g) :
    ∃ p s, f.ports[i]? = some p ∧ step (p.toState f.rom) = .next s ∧
      g = { f with ports := f.ports.set i s.toPort } := by
  cases hp : f.ports[i]? with
  | none => rw [stepAt_of_absent hp] at h; cases h
  | some p =>
    cases hs : step (p.toState f.rom) with
    | next s =>
      rw [stepAt_of_port_step hp hs] at h
      cases h
      exact ⟨p, s, rfl, hs, rfl⟩
    | fault r | refused r => simp only [Fabric.stepAt, hp, hs] at h; cases h

/-- On a well-formed ROM every instance that exists can step. -/
theorem stepAt_answers {f : Fabric} {i : Nat} {p : Port} (hw : tablesWellFormed f.rom = true)
    (hp : f.ports[i]? = some p) : ∃ g, f.stepAt i = .next g := by
  obtain ⟨s, hs⟩ := step_answers (s := p.toState f.rom) hw
  exact ⟨_, stepAt_of_port_step hp hs⟩

/-- A step of an instance takes the next request of its port to its whole response. -/
theorem stepAt_of_request {f : Fabric} {i : Nat} {w rsp : Word} {rest responses : List Word}
    (hw : tablesWellFormed f.rom = true) (hp : f.ports[i]? = some ⟨w :: rest, responses⟩)
    (he : engine f.rom w = some rsp) :
    f.stepAt i = .next { f with ports := f.ports.set i ⟨rest, responses ++ [rsp]⟩ } :=
  stepAt_of_port_step hp (step_of_request hw rfl he)

/-- A step of an idle instance changes nothing (log 4): its port is put back as it was. -/
theorem stepAt_of_idle {f : Fabric} {i : Nat} {responses : List Word}
    (hw : tablesWellFormed f.rom = true) (hp : f.ports[i]? = some ⟨[], responses⟩) :
    f.stepAt i = .next f := by
  obtain ⟨hi, hget⟩ := List.getElem?_eq_some_iff.mp hp
  rw [stepAt_of_port_step hp (step_of_idle hw rfl), toPort_toState, ← hget, List.set_getElem_self]

/-- The frame of a step of an instance: the shared ROM and every other port. -/
theorem stepAt_frame {f g : Fabric} {i : Nat} (h : f.stepAt i = .next g) :
    g.rom = f.rom ∧ g.ports.length = f.ports.length ∧ ∀ n, n ≠ i → g.ports[n]? = f.ports[n]? := by
  obtain ⟨p, s, -, -, rfl⟩ := stepAt_next h
  exact ⟨rfl, List.length_set, fun n hn => List.getElem?_set_ne hn.symm⟩

/-- What a step of an instance leaves in its own port. -/
theorem stepAt_own_port {f g : Fabric} {i : Nat} (h : f.stepAt i = .next g) :
    ∃ p s, f.ports[i]? = some p ∧ step (p.toState f.rom) = .next s ∧ g.ports[i]? = some s.toPort := by
  obtain ⟨p, s, hp, hs, rfl⟩ := stepAt_next h
  obtain ⟨hi, -⟩ := List.getElem?_eq_some_iff.mp hp
  exact ⟨p, s, hp, hs, List.getElem?_set_self hi⟩

/-- Steps of two instances commute: neither changes what the other reads, and the two writes fall on
different ports. -/
theorem stepAt_comm {f g h : Fabric} {i j : Nat} (hij : i ≠ j) (hi : f.stepAt i = .next g)
    (hj : f.stepAt j = .next h) : ∃ k, g.stepAt j = .next k ∧ h.stepAt i = .next k := by
  obtain ⟨p, s, hp, hs, rfl⟩ := stepAt_next hi
  obtain ⟨q, t, hq, ht, rfl⟩ := stepAt_next hj
  have hq' : (f.ports.set i s.toPort)[j]? = some q := by rw [List.getElem?_set_ne hij, hq]
  have hp' : (f.ports.set j t.toPort)[i]? = some p := by rw [List.getElem?_set_ne hij.symm, hp]
  refine ⟨{ f with ports := (f.ports.set i s.toPort).set j t.toPort }, stepAt_of_port_step hq' ht, ?_⟩
  rw [List.set_comm _ _ hij]
  exact stepAt_of_port_step hp' hs

/-- Instances with one and the same port step to one and the same port. -/
theorem stepAt_port_congr {f g h : Fabric} {i j : Nat} (hij : f.ports[i]? = f.ports[j]?)
    (hi : f.stepAt i = .next g) (hj : f.stepAt j = .next h) : g.ports[i]? = h.ports[j]? := by
  obtain ⟨p, s, hp, hs, hg⟩ := stepAt_own_port hi
  obtain ⟨q, t, hq, ht, hh⟩ := stepAt_own_port hj
  obtain rfl : p = q := Option.some.inj (by rw [← hp, ← hq, hij])
  obtain rfl : s = t := Host.Outcome.next.inj (hs.symm.trans ht)
  rw [hg, hh]

/-- There is an instance after reset (`00_scope.md` R5). -/
theorem reset_has_an_instance : 1 ≤ Fabric.reset.ports.length := by
  rw [Fabric.reset, List.length_replicate]
  exact Nat.le_add_left 1 Config.moreEngines

/-- Settles O41: every clause is a law of `Fabric.stepAt`, got from one inversion lemma of it
(`stepAt_next`) and the step of a port over the shared ROM. -/
theorem instancesAreIndependent : Obligations.InstancesAreIndependent := by
  refine ⟨reset_has_an_instance, fun _ _ _ hw hp => stepAt_answers hw hp, ?_,
    fun _ _ _ hw hp => stepAt_of_idle hw hp, fun _ _ hp => stepAt_of_absent hp,
    fun _ _ _ h => stepAt_frame h, fun _ _ _ _ _ hij hi hj => stepAt_comm hij hi hj,
    fun _ _ _ _ _ hij hi hj => stepAt_port_congr hij hi hj⟩
  intro f i w rest responses hw hp
  obtain ⟨rsp, he⟩ := engine_answers hw w
  exact ⟨rsp, he, stepAt_of_request hw hp he⟩

end Sys2Proof.Machine
end

section
/-! PROOFS. What the checks of `TablesWellFormed` say, and `IP` and its inverse as gathers
(`20_memory.md` R33 to R42). -/

namespace Sys2Proof.Machine

/-- `n` different indices below `n` are each of them once. -/
theorem permutationVector_iff_perm {n : Nat} {v : List Nat} :
    permutationVector n v = true ↔ v.Perm (List.range n) := by
  rw [permutationVector_iff]
  constructor
  · rintro ⟨hlen, hlt, hnodup⟩
    have hsub : v ⊆ List.range n := fun i hi => List.mem_range.mpr (hlt i hi)
    exact (hnodup.subperm hsub).perm_of_length_le (by simp [hlen])
  · intro hp
    exact ⟨by simpa using hp.length_eq, fun i hi => List.mem_range.mp (hp.mem_iff.mp hi),
      hp.nodup_iff.mpr List.nodup_range⟩

/-- The check of R36's index equations, each read as a lookup that finds an entry and one that leads
back. -/
theorem mutuallyInverse_iff {ip ipInv : List Nat} :
    mutuallyInverse ip ipInv = true ↔
      ∀ i < 8, (∃ j, ipInv[i]? = some j ∧ ip[j]? = some i) ∧
        ∃ j, ip[i]? = some j ∧ ipInv[j]? = some i := by
  simp [mutuallyInverse, Option.bind_eq_some_iff]

/-- `TablesWellFormed` as the conjunction of its checks; `wf_parts` is one direction of it. -/
theorem tablesWellFormed_iff {t : Tables} :
    tablesWellFormed t = true ↔
      permutationVector 10 t.p10Vector = true ∧
      (indexVector 8 10 t.p8Vector = true ∧ t.p8Vector.Nodup) ∧
      permutationVector 8 t.ipVector = true ∧
      (permutationVector 8 t.ipInverseVector = true ∧
        mutuallyInverse t.ipVector t.ipInverseVector = true) ∧
      indexVector 8 4 t.epVector = true ∧ permutationVector 4 t.p4Vector = true ∧
      ∀ b ∈ [t.s0, t.s1], sboxShape b = true := by
  simp [tablesWellFormed, and_assoc]

/-- Settles O23: each check of `TablesWellFormed` says what the rule on its table says, a permutation
being `n` different indices below `n`. -/
theorem wellFormedTablesMeetTheConstraints : Obligations.WellFormedTablesMeetTheConstraints := by
  intro t
  simp only [tablesWellFormed_iff, permutationVector_iff_perm, mutuallyInverse_iff, indexVector_iff,
    sboxShape_iff, Nat.lt_succ_iff, List.Nodup, and_assoc]

/-- An element of a gather's result is the element of the vector that its index names (R92). -/
theorem permute_getElem? {v r : BitVector} {ix : List Nat} {i j : Nat} (h : permute v ix = .ok r)
    (hi : ix[i]? = some j) : r[i]? = v[j]? := by
  obtain ⟨hvalid, rfl⟩ := permute_inv h
  have hj : j < v.length := hvalid j (List.mem_of_getElem? hi)
  simp [hi, hj]

/-- A gather is undone by a second one whose entries lead the first one's entries back to their
places. -/
theorem permute_undone {v : BitVector} {ix jx : List Nat} (hix : ∀ i ∈ ix, i < v.length)
    (hlen : jx.length = v.length)
    (hinv : ∀ i < v.length, ∃ j, jx[i]? = some j ∧ ix[j]? = some i) :
    ∃ u, permute v ix = .ok u ∧ permute u jx = .ok v := by
  obtain ⟨u, hu, hul⟩ := permute_answers hix
  have hjx : ∀ j ∈ jx, j < u.length := by
    intro j hj
    obtain ⟨i, hi, rfl⟩ := List.mem_iff_getElem.mp hj
    obtain ⟨k, hk, hki⟩ := hinv i (hlen ▸ hi)
    obtain rfl : jx[i] = k := by simpa [hi] using hk
    exact hul ▸ (List.getElem?_eq_some_iff.mp hki).1
  obtain ⟨w, hw, hwl⟩ := permute_answers hjx
  have hwv : w = v := by
    refine List.ext_getElem? fun i => ?_
    by_cases hi : i < v.length
    · obtain ⟨j, hj, hji⟩ := hinv i hi
      calc w[i]? = u[j]? := permute_getElem? hw hj
        _ = v[i]? := permute_getElem? hu hji
    · rw [List.getElem?_eq_none (by omega), List.getElem?_eq_none (by omega)]
  exact ⟨u, hu, hwv ▸ hw⟩

/-- Settles O25: R36's index equations are `mutuallyInverse`, and each of the two makes one gather undo
the other. -/
theorem initialPermutationsAreInverse : Obligations.InitialPermutationsAreInverse := by
  intro t h
  obtain ⟨-, -, -, ⟨hperm, hmutual⟩, -⟩ := tablesWellFormed_iff.mp h
  obtain ⟨hipl, hip⟩ := wf_ip h
  obtain ⟨hinvl, hinv⟩ := wf_ipInverse h
  have hindex := mutuallyInverse_iff.mp hmutual
  refine ⟨hinvl, permutationVector_iff_perm.mp hperm, fun v hv => ?_, hindex⟩
  rw [← hv] at hipl hip hinvl hinv hindex
  exact ⟨permute_undone hip hinvl fun i hi => (hindex i hi).1,
    permute_undone hinv hipl fun i hi => (hindex i hi).2⟩

end Sys2Proof.Machine
end

section
/-! PROOFS. The classes of request words and what the decoder answers in each (`30_encoding.md` R68 to
R70). -/

namespace Sys2Proof

open Machine Safety

theorem selects_iff {row : Opcode} {w : Word} :
    selects row w = true ↔ w &&& opcodeMask row = opcodePattern row := beq_iff_eq

/-- The fields of a word of some row (R68): clear reserved bits and, in formats C and B, a mode
(`exists_selects_iff`). -/
abbrev FieldsOfSomeRow (w : Word) : Prop :=
  (opField w = 1 ∧ modeField w = 0 ∧ reservedK w = 0) ∨
    (opField w = 2 ∧ modeField w < 2 ∧ reservedC w = 0) ∨
    (opField w = 3 ∧ modeField w < 2 ∧ reservedB w = 0)

theorem exists_selects_iff (w : Word) : (∃ row, selects row w = true) ↔ FieldsOfSomeRow w := by
  constructor
  · rintro ⟨row, h⟩
    cases row with
    | keygen => exact .inl ((selects_keygen_iff w).mp h)
    | cipherE => have := (selects_cipherE_iff w).mp h; omega
    | cipherD => have := (selects_cipherD_iff w).mp h; omega
    | encrypt => have := (selects_encrypt_iff w).mp h; omega
    | decrypt => have := (selects_decrypt_iff w).mp h; omega
  · rintro (h | ⟨hop, hm, hr⟩ | ⟨hop, hm, hr⟩)
    · exact ⟨_, (selects_keygen_iff w).mpr h⟩
    · obtain hm | hm : modeField w = 0 ∨ modeField w = 1 := by omega
      · exact ⟨_, (selects_cipherE_iff w).mpr ⟨hop, hm, hr⟩⟩
      · exact ⟨_, (selects_cipherD_iff w).mpr ⟨hop, hm, hr⟩⟩
    · obtain hm | hm : modeField w = 0 ∨ modeField w = 1 := by omega
      · exact ⟨_, (selects_encrypt_iff w).mpr ⟨hop, hm, hr⟩⟩
      · exact ⟨_, (selects_decrypt_iff w).mpr ⟨hop, hm, hr⟩⟩

/-- The last class of R69 in terms of fields. -/
theorem any_selects (w : Word) :
    ([Opcode.keygen, .cipherE, .cipherD, .encrypt, .decrypt].any fun row => selects row w) =
      decide (FieldsOfSomeRow w) := by
  have hall : ∀ row, row ∈ [Opcode.keygen, .cipherE, .cipherD, .encrypt, .decrypt] := by
    intro row; cases row <;> decide
  rw [Bool.eq_iff_iff, decide_eq_true_iff, ← exists_selects_iff, List.any_eq_true]
  exact exists_congr fun row => and_iff_right (hall row)

/-- The six classes of R69 as conditions on the fields of the word. -/
theorem requestClasses_eq (w : Word) :
    requestClasses w =
      [ decide (opField w = 0),
        decide (opField w = 1 ∧ (modeField w ≠ 0 ∨ reservedK w ≠ 0)),
        decide (opField w = 2 ∧ reservedC w ≠ 0),
        decide (opField w = 3 ∧ reservedB w ≠ 0),
        decide ((opField w = 2 ∧ reservedC w = 0 ∨ opField w = 3 ∧ reservedB w = 0) ∧
          (modeField w = 2 ∨ modeField w = 3)),
        decide (FieldsOfSomeRow w) ] := by
  rw [requestClasses, any_selects]
  simp only [bne, beq_eq_decide, Bool.decide_and, Bool.decide_or, decide_not]
  rfl

/-- Every word is in exactly one class of R69: the op field leaves the classes of one format, and of
these the format's reserved bits and the mode field leave one. -/
theorem requestClasses_count (w : Word) : (requestClasses w).count true = 1 := by
  have hop := opField_lt w
  have hmode := modeField_lt w
  have mode_cases : modeField w = 0 ∨ modeField w = 1 ∨ modeField w = 2 ∨ modeField w = 3 := by omega
  rw [requestClasses_eq]
  obtain h | h | h | h : opField w = 0 ∨ opField w = 1 ∨ opField w = 2 ∨ opField w = 3 := by omega
  · simp [FieldsOfSomeRow, h]
  · by_cases hm : modeField w = 0 <;> by_cases hr : reservedK w = 0 <;>
      simp [FieldsOfSomeRow, h, hm, hr]
  · by_cases hr : reservedC w = 0
    · obtain hm | hm | hm | hm := mode_cases <;> simp [FieldsOfSomeRow, h, hr, hm]
    · simp [FieldsOfSomeRow, h, hr]
  · by_cases hr : reservedB w = 0
    · obtain hm | hm | hm | hm := mode_cases <;> simp [FieldsOfSomeRow, h, hr, hm]
    · simp [FieldsOfSomeRow, h, hr]

/-- The class of a word, as one of six cases (R69). -/
theorem request_cases (w : Word) :
    opField w = 0 ∨ (opField w = 1 ∧ (modeField w ≠ 0 ∨ reservedK w ≠ 0)) ∨
      (opField w = 2 ∧ reservedC w ≠ 0) ∨ (opField w = 3 ∧ reservedB w ≠ 0) ∨
      ((opField w = 2 ∧ reservedC w = 0 ∨ opField w = 3 ∧ reservedB w = 0) ∧
        (modeField w = 2 ∨ modeField w = 3)) ∨
      ∃ row, selects row w = true := by
  have hmem : true ∈ requestClasses w := List.count_pos_iff.mp (by rw [requestClasses_count]; omega)
  rw [requestClasses_eq] at hmem
  simpa only [exists_selects_iff, List.mem_cons, List.not_mem_nil, or_false,
    true_eq_decide_iff] using hmem

/-! ### The decoder's answer in each class -/

theorem decode_of_reserved_op {w : Word} (hop : opField w = 0) :
    decode w = .error (.raise .illegalRequest none) := by
  rw [decode, if_pos hop]

theorem decode_of_reservedK {w : Word} (hop : opField w = 1)
    (hr : modeField w ≠ 0 ∨ reservedK w ≠ 0) : decode w = .error (.raise .illegalRequest none) := by
  simp [decode, hop, hr]

theorem decode_of_reservedC {w : Word} (hop : opField w = 2) (hr : reservedC w ≠ 0) :
    decode w = .error (.raise .illegalRequest none) := by
  simp [decode, hop, hr]

theorem decode_of_reservedB {w : Word} (hop : opField w = 3) (hr : reservedB w ≠ 0) :
    decode w = .error (.raise .illegalRequest none) := by
  simp [decode, hop, hr]

theorem decode_of_unknown_mode {w : Word}
    (hr : opField w = 2 ∧ reservedC w = 0 ∨ opField w = 3 ∧ reservedB w = 0)
    (hm : modeField w = 2 ∨ modeField w = 3) : decode w = .error (.raise .unknownMode none) := by
  have hm : 2 ≤ modeField w := by omega
  obtain ⟨hop, hr⟩ | ⟨hop, hr⟩ := hr <;> simp [decode, hop, hr, hm]

/-- A format K word with clear reserved bits decodes to KEYGEN on its operand field. -/
theorem decode_formatK {w : Word} (hop : opField w = 1) (hm : modeField w = 0)
    (hr : reservedK w = 0) :
    ∃ key, fromInteger (field w 27 18) 10 = .ok key ∧ decode w = .ok (.keygen key) := by
  obtain ⟨key, hkey, -⟩ := operand_answers w (hi := 27) (lo := 18) (n := 10) rfl
  exact ⟨key, hkey, by simp [decode, hop, hm, hr, keyOperand, hkey]⟩

/-- A format C word with clear reserved bits and a mode decodes to that mode's operation on its operand
fields. -/
theorem decode_formatC {w : Word} (hop : opField w = 2) (hm : modeField w < 2)
    (hr : reservedC w = 0) :
    ∃ key1 key2 block, fromInteger (field w 27 20) 8 = .ok key1 ∧
      fromInteger (field w 19 12) 8 = .ok key2 ∧ fromInteger (field w 11 4) 8 = .ok block ∧
      decode w = .ok (if modeField w = 0 then .cipherE key1 key2 block
        else .cipherD key1 key2 block) := by
  obtain ⟨key1, hkey1, -⟩ := operand_answers w (hi := 27) (lo := 20) (n := 8) rfl
  obtain ⟨key2, hkey2, -⟩ := operand_answers w (hi := 19) (lo := 12) (n := 8) rfl
  obtain ⟨block, hblock, -⟩ := operand_answers w (hi := 11) (lo := 4) (n := 8) rfl
  exact ⟨key1, key2, block, hkey1, hkey2, hblock, by
    simp [decode, hop, hm, hr, key1Operand, key2Operand, blockOperandC, hkey1, hkey2, hblock]⟩

/-- A format B word with clear reserved bits and a mode decodes to that mode's operation on its operand
fields. -/
theorem decode_formatB {w : Word} (hop : opField w = 3) (hm : modeField w < 2)
    (hr : reservedB w = 0) :
    ∃ key block, fromInteger (field w 27 18) 10 = .ok key ∧
      fromInteger (field w 17 10) 8 = .ok block ∧
      decode w = .ok (if modeField w = 0 then .encrypt key block else .decrypt key block) := by
  obtain ⟨key, hkey, -⟩ := operand_answers w (hi := 27) (lo := 18) (n := 10) rfl
  obtain ⟨block, hblock, -⟩ := operand_answers w (hi := 17) (lo := 10) (n := 8) rfl
  exact ⟨key, block, hkey, hblock, by
    simp [decode, hop, hm, hr, keyOperand, blockOperandB, hkey, hblock]⟩

/-! ### A row's words, one lemma per row -/

theorem decode_of_selects_keygen {w : Word} (h : selects .keygen w = true) :
    ∃ key, fromInteger (field w 27 18) 10 = .ok key ∧ decode w = .ok (.keygen key) := by
  obtain ⟨hop, hm, hr⟩ := (selects_keygen_iff w).mp h
  exact decode_formatK hop hm hr

theorem decode_of_selects_cipherE {w : Word} (h : selects .cipherE w = true) :
    ∃ key1 key2 block, fromInteger (field w 27 20) 8 = .ok key1 ∧
      fromInteger (field w 19 12) 8 = .ok key2 ∧ fromInteger (field w 11 4) 8 = .ok block ∧
      decode w = .ok (.cipherE key1 key2 block) := by
  obtain ⟨hop, hm, hr⟩ := (selects_cipherE_iff w).mp h
  simpa [hm] using decode_formatC hop (by omega) hr

theorem decode_of_selects_cipherD {w : Word} (h : selects .cipherD w = true) :
    ∃ key1 key2 block, fromInteger (field w 27 20) 8 = .ok key1 ∧
      fromInteger (field w 19 12) 8 = .ok key2 ∧ fromInteger (field w 11 4) 8 = .ok block ∧
      decode w = .ok (.cipherD key1 key2 block) := by
  obtain ⟨hop, hm, hr⟩ := (selects_cipherD_iff w).mp h
  simpa [hm] using decode_formatC hop (by omega) hr

theorem decode_of_selects_encrypt {w : Word} (h : selects .encrypt w = true) :
    ∃ key block, fromInteger (field w 27 18) 10 = .ok key ∧
      fromInteger (field w 17 10) 8 = .ok block ∧ decode w = .ok (.encrypt key block) := by
  obtain ⟨hop, hm, hr⟩ := (selects_encrypt_iff w).mp h
  simpa [hm] using decode_formatB hop (by omega) hr

theorem decode_of_selects_decrypt {w : Word} (h : selects .decrypt w = true) :
    ∃ key block, fromInteger (field w 27 18) 10 = .ok key ∧
      fromInteger (field w 17 10) 8 = .ok block ∧ decode w = .ok (.decrypt key block) := by
  obtain ⟨hop, hm, hr⟩ := (selects_decrypt_iff w).mp h
  simpa [hm] using decode_formatB hop (by omega) hr

/-- A word of a row decodes to an operation of that row. -/
theorem decode_of_selects {row : Opcode} {w : Word} (h : selects row w = true) :
    ∃ i, decode w = .ok i ∧ i.opcode = row := by
  cases row with
  | keygen => obtain ⟨_, -, hd⟩ := decode_of_selects_keygen h; exact ⟨_, hd, rfl⟩
  | cipherE => obtain ⟨_, _, _, -, -, -, hd⟩ := decode_of_selects_cipherE h; exact ⟨_, hd, rfl⟩
  | cipherD => obtain ⟨_, _, _, -, -, -, hd⟩ := decode_of_selects_cipherD h; exact ⟨_, hd, rfl⟩
  | encrypt => obtain ⟨_, _, -, -, hd⟩ := decode_of_selects_encrypt h; exact ⟨_, hd, rfl⟩
  | decrypt => obtain ⟨_, _, -, -, hd⟩ := decode_of_selects_decrypt h; exact ⟨_, hd, rfl⟩

/-- A word selects at most one row, since it decodes to at most one operation. -/
theorem selects_unique {row row' : Opcode} {w : Word} (h : selects row w = true)
    (h' : selects row' w = true) : row = row' := by
  obtain ⟨i, hi, rfl⟩ := decode_of_selects h
  obtain ⟨j, hj, rfl⟩ := decode_of_selects h'
  rw [Except.ok.inj (hi.symm.trans hj)]

/-- A word that decodes to an operation selects that operation's row: in every other class the decoder
answers an error. -/
theorem selects_of_decode {w : Word} {i : Instr} (h : decode w = .ok i) :
    selects i.opcode w = true := by
  obtain hop | ⟨hop, hr⟩ | ⟨hop, hr⟩ | ⟨hop, hr⟩ | ⟨hr, hm⟩ | ⟨row, hrow⟩ := request_cases w
  · rw [decode_of_reserved_op hop] at h; cases h
  · rw [decode_of_reservedK hop hr] at h; cases h
  · rw [decode_of_reservedC hop hr] at h; cases h
  · rw [decode_of_reservedB hop hr] at h; cases h
  · rw [decode_of_unknown_mode hr hm] at h; cases h
  · obtain ⟨j, hj, rfl⟩ := decode_of_selects hrow
    rwa [Except.ok.inj (h.symm.trans hj)]

/-- A word that selects no row decodes to one of the decoder's two errors. -/
theorem decode_of_not_selects {w : Word} (h : ∀ row, selects row w = false) :
    decode w = .error (.raise .illegalRequest none) ∨
      decode w = .error (.raise .unknownMode none) := by
  obtain hd | hd | ⟨i, hd, -⟩ := decode_cases w
  · exact .inl hd
  · exact .inr hd
  · have hsel := selects_of_decode hd
    rw [h] at hsel
    cases hsel

/-- Settles O4: a row's words decode to its operation (`decode_of_selects_keygen` and its like), and a
word that decodes to an operation selects its row (`selects_of_decode`). -/
theorem rowsSelectTheWordsOfTheirOperation : Obligations.RowsSelectTheWordsOfTheirOperation := by
  intro w
  refine ⟨⟨fun h => decode_of_selects_keygen (selects_iff.mpr h), ?_⟩,
    ⟨fun h => decode_of_selects_cipherE (selects_iff.mpr h), ?_⟩,
    ⟨fun h => decode_of_selects_cipherD (selects_iff.mpr h), ?_⟩,
    ⟨fun h => decode_of_selects_encrypt (selects_iff.mpr h), ?_⟩,
    ⟨fun h => decode_of_selects_decrypt (selects_iff.mpr h), ?_⟩,
    fun _ _ => selects_unique, decode_of_not_selects⟩
  · rintro ⟨_, -, hd⟩
    exact selects_iff.mp (selects_of_decode hd)
  · rintro ⟨_, _, _, -, -, -, hd⟩
    exact selects_iff.mp (selects_of_decode hd)
  · rintro ⟨_, _, _, -, -, -, hd⟩
    exact selects_iff.mp (selects_of_decode hd)
  · rintro ⟨_, _, -, -, hd⟩
    exact selects_iff.mp (selects_of_decode hd)
  · rintro ⟨_, _, -, -, hd⟩
    exact selects_iff.mp (selects_of_decode hd)

end Sys2Proof
end

section
/-! PROOFS. How a step answers a word of each class, and the layout of the responses
(`30_encoding.md` R66, R69; `60_exceptions.md` R170). -/

namespace Sys2Proof.Machine

open Safety

/-- A step on a word the decoder rejects gives the error's response. -/
theorem step_of_decode_error {s : State} {w : Word} {rest : List Word} {kind : ErrorKind}
    {info : Option Nat} (hw : tablesWellFormed s.rom = true) (hq : s.requests = w :: rest)
    (hd : decode w = .error (.raise kind info)) :
    step s = .next { s with requests := rest, responses := s.responses ++ [errorResponse kind] } :=
  step_of_request hw hq (by rw [engine, if_pos hw, engineResult, hd]; rfl)

/-- A step on a word of an operation gives the operation's response. -/
theorem step_of_decode_ok {s : State} {w rsp : Word} {rest : List Word} {i : Instr}
    (hw : tablesWellFormed s.rom = true) (hq : s.requests = w :: rest) (hd : decode w = .ok i)
    (hr : operationResponse s.rom i = .ok rsp) :
    step s = .next { s with requests := rest, responses := s.responses ++ [rsp] } :=
  step_of_request hw hq (by rw [engine, if_pos hw, engineResult, hd, Except_bind_ok, hr]; rfl)

/-- A step on a word of a row gives the response of the row's operation. -/
theorem step_of_selects {s : State} {w : Word} {rest : List Word} {row : Opcode}
    (hw : tablesWellFormed s.rom = true) (hq : s.requests = w :: rest) (h : selects row w = true) :
    ∃ i rsp, decode w = .ok i ∧ i.opcode = row ∧ operationResponse s.rom i = .ok rsp ∧
      step s = .next { s with requests := rest, responses := s.responses ++ [rsp] } := by
  obtain ⟨i, hd, hrow⟩ := decode_of_selects h
  obtain ⟨_, _, -, -, hr⟩ := operationResponse_answers hw (decode_wf hd)
  exact ⟨i, _, hd, hrow, hr, step_of_decode_ok hw hq hd hr⟩

/-- Settles O5: the classes are exclusive and cover every word (`requestClasses_count`), the decoder's
answer in each is known, and a step gives that answer's response. -/
theorem everyWordIsAnsweredByItsClass : Obligations.EveryWordIsAnsweredByItsClass := by
  intro s w rest hw hq
  exact ⟨requestClasses_count w,
    fun hop => step_of_decode_error hw hq (decode_of_reserved_op hop),
    fun hop hr => step_of_decode_error hw hq (decode_of_reservedK hop hr),
    fun hop hr => step_of_decode_error hw hq (decode_of_reservedC hop hr),
    fun hop hr => step_of_decode_error hw hq (decode_of_reservedB hop hr),
    fun hr hm => step_of_decode_error hw hq (decode_of_unknown_mode hr hm),
    fun _ h => step_of_selects hw hq h⟩

/-- Every field of an error response (R66): the kind's code, and zeros. -/
theorem errorResponse_fields (kind : ErrorKind) :
    statusField (errorResponse kind) = statusCode kind ∧ zeroField (errorResponse kind) = 0 ∧
      field (errorResponse kind) 27 0 = 0 := by
  have hcode : statusCode kind < 16 := by cases kind <;> decide
  obtain ⟨hs, hz, -, -, hlow⟩ := response_fields (hi := []) (lo := []) hcode (by simp) (by simp)
  exact ⟨hs, hz, hlow⟩

@[simp] theorem statusField_errorResponse (kind : ErrorKind) :
    statusField (errorResponse kind) = statusCode kind := (errorResponse_fields kind).1

@[simp] theorem zeroField_errorResponse (kind : ErrorKind) : zeroField (errorResponse kind) = 0 :=
  (errorResponse_fields kind).2.1

@[simp] theorem field_errorResponse_low (kind : ErrorKind) : field (errorResponse kind) 27 0 = 0 :=
  (errorResponse_fields kind).2.2

theorem statusCode_le (kind : ErrorKind) : statusCode kind ≤ 5 := by cases kind <;> decide

/-- What an operation's response holds below the status (R66): KEYGEN's pair in `hi` and `lo`; for the
others zero in `hi` and the output block in `lo`. -/
def HoldsResult (t : Tables) (rsp : Word) : Instr → Prop
  | .keygen key => ∃ v, keySchedule t key = .ok v ∧
      hiField rsp = toInteger v.key1 ∧ loField rsp = toInteger v.key2
  | .cipherE key1 key2 block => hiField rsp = 0 ∧
      ∃ v, cipher t block key1 key2 .encrypt = .ok v ∧ loField rsp = toInteger v.out
  | .cipherD key1 key2 block => hiField rsp = 0 ∧
      ∃ v, cipher t block key1 key2 .decrypt = .ok v ∧ loField rsp = toInteger v.out
  | .encrypt key block => hiField rsp = 0 ∧
      ∃ ks v, keySchedule t key = .ok ks ∧ cipher t block ks.key1 ks.key2 .encrypt = .ok v ∧
        loField rsp = toInteger v.out
  | .decrypt key block => hiField rsp = 0 ∧
      ∃ ks v, keySchedule t key = .ok ks ∧ cipher t block ks.key1 ks.key2 .decrypt = .ok v ∧
        loField rsp = toInteger v.out

theorem HoldsResult.hiField_eq_zero {t : Tables} {rsp : Word} {i : Instr} (h : HoldsResult t rsp i)
    (hi : i.opcode ≠ .keygen) : hiField rsp = 0 := by
  cases i with
  | keygen => exact absurd rfl hi
  | cipherE | cipherD | encrypt | decrypt => exact h.1

/-- Every field of a block response (R66). -/
theorem blockResponse_fields {out : BitVector} (h : out.length = 8) :
    statusField (blockResponse out) = 0 ∧ zeroField (blockResponse out) = 0 ∧
      hiField (blockResponse out) = 0 ∧ loField (blockResponse out) = toInteger out := by
  obtain ⟨hs, hz, hhi, hlo, -⟩ :=
    response_fields (status := statusOk) (hi := []) (by decide) (by simp) h.le
  exact ⟨hs, hz, hhi, hlo⟩

/-- On a well-formed ROM the response of an operation with operands of the right lengths has status OK
and holds the operation's result. -/
theorem operationResponse_layout {t : Tables} (h : tablesWellFormed t = true) {i : Instr}
    (hi : i.wf = true) :
    ∃ rsp, operationResponse t i = .ok rsp ∧ statusField rsp = 0 ∧ zeroField rsp = 0 ∧
      HoldsResult t rsp i := by
  cases i with
  | keygen key =>
    simp only [Instr.wf, isKey, beq_iff_eq] at hi
    obtain ⟨v, hv, h1, h2, hr⟩ := keygenResponse_answers h hi
    obtain ⟨hs, hz, hhi, hlo, -⟩ := response_fields (status := statusOk) (by decide) h1.le h2.le
    exact ⟨_, hr, hs, hz, v, hv, hhi, hlo⟩
  | cipherE key1 key2 block | cipherD key1 key2 block =>
    simp only [Instr.wf, isSubkey, isBlock, Bool.and_eq_true, beq_iff_eq] at hi
    obtain ⟨⟨h1, h2⟩, hb⟩ := hi
    obtain ⟨v, hv, hout, hr⟩ := cipherResponse_answers h hb h1 h2 _
    obtain ⟨hs, hz, hhi, hlo⟩ := blockResponse_fields hout
    exact ⟨_, hr, hs, hz, hhi, v, hv, hlo⟩
  | encrypt key block | decrypt key block =>
    simp only [Instr.wf, isKey, isBlock, Bool.and_eq_true, beq_iff_eq] at hi
    obtain ⟨hk, hb⟩ := hi
    obtain ⟨ks, v, hks, hv, hout, hr⟩ := blockOpResponse_answers h hb hk _
    obtain ⟨hs, hz, hhi, hlo⟩ := blockResponse_fields hout
    exact ⟨_, hr, hs, hz, hhi, ks, v, hks, hv, hlo⟩

/-- A step on a request gives an error response of the kind the decoder raised, or the response of the
operation the decoder answered, with status OK and the operation's result. -/
theorem step_response_cases {s : State} {w : Word} {rest : List Word}
    (hw : tablesWellFormed s.rom = true) (hq : s.requests = w :: rest) :
    ∃ rsp, step s = .next { s with requests := rest, responses := s.responses ++ [rsp] } ∧
      ((∃ kind, decode w = .error (.raise kind none) ∧ rsp = errorResponse kind) ∨
        ∃ i, decode w = .ok i ∧ statusField rsp = 0 ∧ zeroField rsp = 0 ∧
          HoldsResult s.rom rsp i) := by
  obtain hd | hd | ⟨i, hd, hi⟩ := decode_cases w
  · exact ⟨_, step_of_decode_error hw hq hd, .inl ⟨_, hd, rfl⟩⟩
  · exact ⟨_, step_of_decode_error hw hq hd, .inl ⟨_, hd, rfl⟩⟩
  · obtain ⟨rsp, hr, hlayout⟩ := operationResponse_layout hw hi
    exact ⟨rsp, step_of_decode_ok hw hq hd hr, .inr ⟨i, hd, hlayout⟩⟩

/-- The layout of the response of a step (R66), whatever the word. -/
theorem step_response_layout {s : State} {w : Word} {rest : List Word}
    (hw : tablesWellFormed s.rom = true) (hq : s.requests = w :: rest) :
    ∃ rsp, step s = .next { s with requests := rest, responses := s.responses ++ [rsp] } ∧
      statusField rsp ≤ 5 ∧ zeroField rsp = 0 ∧ (statusField rsp ≠ 0 → field rsp 27 0 = 0) ∧
      (∀ kind info, decode w = .error (.raise kind info) → rsp = errorResponse kind) ∧
      (∀ i, decode w = .ok i → statusField rsp = 0) ∧
      ∀ i, decode w = .ok i → HoldsResult s.rom rsp i := by
  obtain ⟨rsp, hstep, ⟨kind, hd, rfl⟩ | ⟨i, hd, hstatus, hzero, hresult⟩⟩ := step_response_cases hw hq
  · refine ⟨_, hstep, by simp [statusCode_le], by simp, fun _ => by simp,
      fun kind' info hd' => ?_, fun i hd' => ?_, fun i hd' => ?_⟩
    · rw [hd] at hd'; cases hd'; rfl
    · rw [hd] at hd'; cases hd'
    · rw [hd] at hd'; cases hd'
  · refine ⟨rsp, hstep, by omega, hzero, fun hne => absurd hstatus hne, fun kind info hd' => ?_,
      fun _ _ => hstatus, fun j hd' => ?_⟩
    · rw [hd] at hd'; cases hd'
    · rw [hd] at hd'; cases hd'; exact hresult

/-- Settles O8: error responses by their fields, a step's response by what the decoder answered
(`step_response_layout`). -/
theorem responsesKeepTheLayout : Obligations.ResponsesKeepTheLayout := by
  refine ⟨by simp [statusCode], field_errorResponse_low, fun _ _ _ => rfl, fun s w rest hw hq => ?_⟩
  obtain ⟨rsp, hstep, hle, hzero, hlow, herror, hstatus, hresult⟩ := step_response_layout hw hq
  exact ⟨rsp, hstep, hle, hzero, hlow, herror, hstatus,
    fun _ hd => hresult _ hd,
    fun i hd hne => (hresult i hd).hiField_eq_zero hne,
    fun _ _ _ hd => (hresult _ hd).2,
    fun _ _ _ hd => (hresult _ hd).2,
    fun _ _ hd => (hresult _ hd).2,
    fun _ _ hd => (hresult _ hd).2⟩

end Sys2Proof.Machine
end

section
/-! PROOFS. Parsing and writing binary texts (`40_bitvector.md` R90; `30_encoding.md` R76). -/

namespace Sys2Proof.Machine

@[simp] theorem toText_nil : toText [] = [] := rfl

@[simp] theorem toText_cons (b : Bool) (v : BitVector) :
    toText (b :: v) = (if b then '1' else '0') :: toText v := rfl

@[simp] theorem toText_length (v : BitVector) : (toText v).length = v.length := List.length_map _

theorem toText_getElem? (v : BitVector) (i : Nat) :
    (toText v)[i]? = v[i]?.map fun b => if b then '1' else '0' := List.getElem?_map

theorem parseFrom_nil (i : Nat) : parseFrom i [] = .ok [] := rfl

theorem parseFrom_bit (i : Nat) (b : Bool) (rest : Text) :
    parseFrom i ((if b then '1' else '0') :: rest) = (parseFrom (i + 1) rest).map (b :: ·) := by
  cases b <;> cases h : parseFrom (i + 1) rest <;> simp [parseFrom, h, Except.map]

theorem parseFrom_bad (i : Nat) {c : Char} (rest : Text) (h0 : c ≠ '0') (h1 : c ≠ '1') :
    parseFrom i (c :: rest) = .error (.raise .invalidInput (some i)) := by
  rw [parseFrom, if_neg h0, if_neg h1]

/-- A binary text in front is read in order, and moves the position of what follows by its length. -/
theorem parseFrom_toText_append (i : Nat) (v : BitVector) (rest : Text) :
    parseFrom i (toText v ++ rest) = (parseFrom (i + v.length) rest).map (v ++ ·) := by
  induction v generalizing i with
  | nil => cases h : parseFrom i rest <;> simp [h, Except.map]
  | cons b v ih =>
    rw [toText_cons, List.cons_append, parseFrom_bit, ih, List.length_cons,
      show i + 1 + v.length = i + (v.length + 1) by omega]
    cases parseFrom (i + (v.length + 1)) rest <;> rfl

/-- `parse` undoes `toText`. -/
theorem parse_toText (v : BitVector) : parse (toText v) = .ok v := by
  have h := parseFrom_toText_append 0 v []
  simpa [parse, parseFrom_nil, Except.map] using h

/-- `parse` reports the position of the first character that is no bit. -/
theorem parse_toText_bad (v : BitVector) {c : Char} (rest : Text) (h0 : c ≠ '0') (h1 : c ≠ '1') :
    parse (toText v ++ c :: rest) = .error (.raise .invalidInput (some v.length)) := by
  rw [parse, parseFrom_toText_append, parseFrom_bad _ rest h0 h1, Nat.zero_add]
  rfl

/-- A text is binary, or binary up to a first character that is no bit. -/
theorem text_cases (text : Text) : (∃ v, text = toText v) ∨
    ∃ v c rest, c ≠ '0' ∧ c ≠ '1' ∧ text = toText v ++ c :: rest := by
  induction text with
  | nil => exact .inl ⟨[], rfl⟩
  | cons d text ih =>
    by_cases hbit : ∃ b : Bool, d = if b then '1' else '0'
    · obtain ⟨b, rfl⟩ := hbit
      obtain ⟨v, rfl⟩ | ⟨v, c, rest, h0, h1, rfl⟩ := ih
      · exact .inl ⟨b :: v, rfl⟩
      · exact .inr ⟨b :: v, c, rest, h0, h1, rfl⟩
    · exact .inr ⟨[], d, text, fun h => hbit ⟨false, h⟩, fun h => hbit ⟨true, h⟩, rfl⟩

/-- `parse` accepts exactly the binary texts, each with the vector it writes. -/
theorem parse_eq_ok_iff {text : Text} {v : BitVector} : parse text = .ok v ↔ text = toText v := by
  constructor
  · intro h
    obtain ⟨w, rfl⟩ | ⟨w, c, rest, h0, h1, rfl⟩ := text_cases text
    · rw [parse_toText] at h
      cases h
      rfl
    · rw [parse_toText_bad w rest h0 h1] at h
      cases h
  · rintro rfl
    exact parse_toText v

/-- Settles O17: `toText` and `parse` undo each other, and every text that `parse` does not accept has a
first character that is no bit (`text_cases`), whose position it reports. -/
theorem parseReadsBinaryTextInOrder : Obligations.ParseReadsBinaryTextInOrder := by
  refine ⟨toText_getElem?, fun _ _ => parse_eq_ok_iff,
    fun v _ rest h0 h1 => parse_toText_bad v rest h0 h1, text_cases, fun text v h => ?_,
    by decide, by decide, rfl⟩
  rw [parse_eq_ok_iff.mp h, toText_length]

end Sys2Proof.Machine
end

section
/-! PROOFS. The utilities that move and combine bits: `xor`, `permute`, `split`, `merge`
(`40_bitvector.md` R91 to R94). -/

namespace Sys2Proof.Machine

theorem xorBits_of_length_ne {a b : BitVector} (h : a.length ≠ b.length) :
    xorBits a b = .error (.raise .lengthMismatch none) := by rw [xorBits, if_neg h]

/-- `xor` answers `r` exactly when the lengths agree and each element of `r` is the exclusive or of the
two at its index. -/
theorem xorBits_eq_ok_iff {a b r : BitVector} :
    xorBits a b = .ok r ↔ a.length = b.length ∧ r.length = a.length ∧
      ∀ (i : Nat) (ha : i < a.length) (hb : i < b.length) (hr : i < r.length),
        r[i] = (a[i] ^^ b[i]) := by
  constructor
  · intro h
    by_cases hl : a.length = b.length
    · rw [xor_ok hl] at h
      cases h
      exact ⟨hl, by simp [hl], fun i _ _ _ => List.getElem_zipWith⟩
    · rw [xorBits_of_length_ne hl] at h
      cases h
  · rintro ⟨hl, hrl, h⟩
    rw [xor_ok hl]
    refine congrArg Except.ok (List.ext_getElem (by simp [hl, hrl]) fun i hz hr => ?_)
    rw [List.getElem_zipWith, h i (by omega) (by omega) hr]

/-- `xor` with one vector twice changes nothing. -/
theorem xorBits_undone {a b r : BitVector} (h : xorBits a b = .ok r) : xorBits r b = .ok a := by
  obtain ⟨hl, hrl, hr⟩ := xorBits_eq_ok_iff.mp h
  refine xorBits_eq_ok_iff.mpr ⟨hrl.trans hl, hrl.symm, fun i hi hb ha => ?_⟩
  rw [hr i ha hb hi, Bool.xor_assoc, Bool.xor_self, Bool.xor_false]

theorem xorBits_comm {a b r : BitVector} (h : xorBits a b = .ok r) : xorBits b a = .ok r := by
  obtain ⟨hl, hrl, hr⟩ := xorBits_eq_ok_iff.mp h
  refine xorBits_eq_ok_iff.mpr ⟨hl.symm, hrl.trans hl, fun i hb ha hi => ?_⟩
  rw [hr i ha hb hi, Bool.xor_comm]

theorem xorBits_self (a : BitVector) : xorBits a a = .ok (List.replicate a.length false) :=
  xorBits_eq_ok_iff.mpr ⟨rfl, List.length_replicate, fun i _ _ _ => by simp⟩

/-- An element of an exclusive or, found by lookups. -/
theorem xorBits_getElem? {a b r : BitVector} {i : Nat} {x y : Bool} (h : xorBits a b = .ok r)
    (hx : a[i]? = some x) (hy : b[i]? = some y) : r[i]? = some (x ^^ y) := by
  obtain ⟨-, hrl, hr⟩ := xorBits_eq_ok_iff.mp h
  obtain ⟨ha, rfl⟩ := List.getElem?_eq_some_iff.mp hx
  obtain ⟨hb, rfl⟩ := List.getElem?_eq_some_iff.mp hy
  rw [List.getElem?_eq_getElem (hrl ▸ ha), hr i ha hb]

/-- Settles O18: `xorBits_eq_ok_iff` says what each element is; the laws are then those of one bit. -/
theorem xorIsElementWise : Obligations.XorIsElementWise := by
  refine ⟨fun _ _ hne => xorBits_of_length_ne hne, fun a b hl => ?_, fun a => ?_, rfl, by decide⟩
  · obtain ⟨r, h, hr⟩ := xor_answers rfl hl.symm
    exact ⟨r, h, hr, fun _ _ _ => xorBits_getElem? h, xorBits_undone h, xorBits_comm h⟩
  · exact ⟨xorBits_self a, xorBits_comm (xorBits_undone (xorBits_self a))⟩

/-- A gather with an index that is not valid is refused, wherever the index stands. -/
theorem permute_badIndex {v : BitVector} {ix : List Nat} (h : ∃ i ∈ ix, v.length ≤ i) :
    permute v ix = .error .badIndex := by
  induction ix with
  | nil => simp at h
  | cons i rest ih =>
    by_cases hi : v.length ≤ i
    · simp [permute, hi]
    · obtain ⟨j, hj, hle⟩ := h
      have hrest : j ∈ rest := (List.mem_cons.mp hj).resolve_left fun e => hi (e ▸ hle)
      simp [permute, Nat.lt_of_not_le hi, ih ⟨j, hrest, hle⟩]

/-- The gather by `0, 1, ..., len(v) - 1` is the identity. -/
theorem permute_range (v : BitVector) : permute v (List.range v.length) = .ok v := by
  obtain ⟨r, hr, hrl⟩ := permute_answers (v := v) fun i hi => List.mem_range.mp hi
  rw [List.length_range] at hrl
  have hrv : r = v := by
    refine List.ext_getElem? fun i => ?_
    by_cases hi : i < v.length
    · exact permute_getElem? hr (List.getElem?_range hi)
    · rw [List.getElem?_eq_none (by omega), List.getElem?_eq_none (by omega)]
  rw [hr, hrv]

/-- Settles O19: a gather with valid indices answers (`permute_answers`), element by element
(`permute_getElem?`); any other is refused. -/
theorem permuteIsAGather : Obligations.PermuteIsAGather := by
  refine ⟨fun v ix h => ?_, fun _ _ h => permute_badIndex h, permute_range, by decide⟩
  obtain ⟨r, hr, hl⟩ := permute_answers h
  exact ⟨r, hr, hl, fun _ _ => permute_getElem? hr⟩

theorem split_of_odd {v : BitVector} (h : v.length % 2 ≠ 0) :
    split v = .error (.raise .lengthMismatch none) := by rw [split, if_neg h]

theorem merge_getElem?_left {a b : BitVector} {i : Nat} (h : i < a.length) :
    (merge a b)[i]? = a[i]? := List.getElem?_append_left h

theorem merge_getElem?_right (a b : BitVector) (i : Nat) : (merge a b)[a.length + i]? = b[i]? := by
  rw [merge, List.getElem?_append_right (Nat.le_add_right _ _), Nat.add_sub_cancel_left]

/-- Settles O20: the halves of an even vector are the two it is merged from (`split_answers`), so the
element laws of `merge` are those of `split`. -/
theorem splitAndMergeAreInverse : Obligations.SplitAndMergeAreInverse := by
  refine ⟨fun _ h => split_of_odd h, fun v h => ?_, fun a b => ?_, rfl, by decide, by decide⟩
  · obtain ⟨a, b, hs, ha, hb, rfl⟩ := split_answers (v := v) (n := v.length / 2) (by omega)
    refine ⟨a, b, hs, ha, hb, fun i hi => ?_, rfl⟩
    rw [← ha] at hi ⊢
    exact ⟨(merge_getElem?_left hi).symm, (merge_getElem?_right a b i).symm⟩
  · exact ⟨merge_length a b, fun _ => merge_getElem?_left, merge_getElem?_right a b, split_merge,
      rfl, List.append_nil a⟩

end Sys2Proof.Machine
end

section
/-! PROOFS. `rotateLeft` as Mathlib's `List.rotate`, for every integer (`40_bitvector.md` R95;
`92_eei_decisions.md` D13). -/

namespace Sys2Proof.Machine

/-- Only the remainder by the length matters. -/
theorem rotateLeft_congr {v : BitVector} {n m : Int} (h : n % v.length = m % v.length) :
    rotateLeft v n = rotateLeft v m := by rw [rotateLeft, h, rotateLeft]

/-- A left shift by a natural number is the library's rotation. -/
theorem rotateLeft_natCast (v : BitVector) (k : Nat) : rotateLeft v k = v.rotate k := by
  rw [rotateLeft, List.rotate_eq_drop_append_take_mod, ← Int.natCast_mod, Int.toNat_natCast]

/-- A left shift by an integer is the library's rotation by its remainder. -/
theorem rotateLeft_eq_rotate {v : BitVector} (hv : 1 ≤ v.length) (n : Int) :
    rotateLeft v n = v.rotate (n % v.length).toNat := by
  rw [← rotateLeft_natCast, Int.toNat_of_nonneg (Int.emod_nonneg n (by omega))]
  exact rotateLeft_congr (Int.emod_emod n _).symm

theorem rotateLeft_mul_length (v : BitVector) (n : Int) : rotateLeft v (n * v.length) = v := by
  rw [rotateLeft_congr (m := (0 : Nat)) (by simp), rotateLeft_natCast, List.rotate_zero]

/-- Rotations add up. -/
theorem rotateLeft_rotateLeft {v : BitVector} (hv : 1 ≤ v.length) (n m : Int) :
    rotateLeft (rotateLeft v n) m = rotateLeft v (n + m) := by
  have hpos : (v.length : Int) ≠ 0 := by omega
  have hsum : (n + m) % v.length
      = (((n % v.length).toNat + (m % v.length).toNat : Nat) : Int) % v.length := by
    rw [Nat.cast_add, Int.toNat_of_nonneg (Int.emod_nonneg n hpos),
      Int.toNat_of_nonneg (Int.emod_nonneg m hpos), Int.emod_add_emod, Int.add_emod_emod]
  calc rotateLeft (rotateLeft v n) m
      = (v.rotate (n % v.length).toNat).rotate (m % v.length).toNat := by
        rw [rotateLeft_eq_rotate (by rwa [rotateLeft_length]), rotateLeft_length,
          rotateLeft_eq_rotate hv]
    _ = rotateLeft v (n + m) := by
        rw [List.rotate_rotate, ← rotateLeft_natCast, rotateLeft_congr hsum]

/-- Settles O21: on a vector that is not empty `rotateLeft` is `List.rotate` by the remainder, which is a
permutation of the elements. -/
theorem rotateLeftIsACircularShift : Obligations.RotateLeftIsACircularShift := by
  refine ⟨fun v n hv => ⟨rotateLeft_length v n, fun i hi => ?_, ?_, rotateLeft_mul_length v n,
    rotateLeft_rotateLeft hv n, rotateLeft_congr ?_⟩, fun b m n hm => ?_,
    by decide, by decide, by decide, by decide, by decide⟩
  · rw [rotateLeft_eq_rotate hv, List.getElem?_rotate hi]
  · rw [rotateLeft_eq_rotate hv, (List.rotate_perm v _).count_eq]
  · simp [sub_eq_add_neg]
  · rw [rotateLeft_eq_rotate (by rwa [List.length_replicate]), List.rotate_replicate]

end Sys2Proof.Machine
end

section
/-! PROOFS. Integers and bits (`40_bitvector.md` R96, R97). -/

namespace Sys2Proof.Machine

/-- The positional sum, element 0 with the greatest weight. -/
theorem toInteger_eq_sum (v : BitVector) :
    toInteger v
      = ((List.range v.length).map fun i => (v.getD i false).toNat * 2 ^ (v.length - 1 - i)).sum := by
  induction v with
  | nil => rfl
  | cons b v ih =>
    rw [toInteger_cons, ih, List.length_cons, List.range_succ_eq_map, List.map_cons, List.sum_cons,
      List.map_map]
    simp [Function.comp_def, Nat.sub_sub, Nat.add_comm 1]

theorem toInteger_append (u v : BitVector) :
    toInteger (u ++ v) = toInteger u * 2 ^ v.length + toInteger v := by
  rw [toInteger, List.foldl_append, foldl_toInteger]
  rfl

@[simp] theorem toInteger_replicate_false (m : Nat) : toInteger (List.replicate m false) = 0 := by
  induction m with
  | zero => rfl
  | succ m ih => simp [List.replicate_succ, toInteger_cons, ih]

theorem toInteger_replicate_true (m : Nat) : toInteger (List.replicate m true) = 2 ^ m - 1 := by
  induction m with
  | zero => rfl
  | succ m ih =>
    have := Nat.two_pow_pos m
    rw [List.replicate_succ, toInteger_cons, ih, List.length_replicate, Bool.toNat_true, Nat.pow_succ]
    omega

/-- Leading zeros do not change the value. -/
theorem toInteger_zeros_append (m : Nat) (v : BitVector) :
    toInteger (List.replicate m false ++ v) = toInteger v := by simp [toInteger_append]

theorem fromInteger_overflow {n width : Nat} (h : 2 ^ width ≤ n) :
    fromInteger n width = .error (.raise .overflow none) := by
  rw [fromInteger, if_neg (Nat.not_lt.mpr h)]

theorem fromInteger_zero (m : Nat) : fromInteger 0 m = .ok (List.replicate m false) := by
  simpa using fromInteger_toInteger (v := List.replicate m false) List.length_replicate

/-- Element `i` of the answer is the bit of weight `width - 1 - i`. -/
theorem fromInteger_getElem? {n width i : Nat} {v : BitVector} (h : fromInteger n width = .ok v)
    (hi : i < width) : v[i]? = some ((n >>> (width - 1 - i)) % 2 == 1) := by
  obtain ⟨hn, -, -⟩ := fromInteger_inv h
  rw [fromInteger, if_pos hn] at h
  cases h
  rw [List.getElem?_map, List.getElem?_range hi, Option.map_some]

/-- Settles O22: the value laws follow the vector (`toInteger_cons`, `toInteger_append`), and the two
conversions undo each other. -/
theorem integersAndBitsConvertBothWays : Obligations.IntegersAndBitsConvertBothWays := by
  refine ⟨fun v => ⟨toInteger_lt v, toInteger_eq_sum v, fromInteger_toInteger rfl,
      fun m => toInteger_zeros_append m v⟩,
    fun m => ⟨toInteger_replicate_false m, toInteger_replicate_true m, fromInteger_zero m⟩,
    fun _ _ h => fromInteger_overflow h, fun n width h => ?_, by decide⟩
  obtain ⟨v, hv, hl, hn⟩ := fromInteger_ok h
  exact ⟨v, hv, hl, hn, fun _ => fromInteger_getElem? hv⟩

end Sys2Proof.Machine
end

section
/-! PROOFS. The S-box lookup (`41_sbox.md` R110 to R113). -/

namespace Sys2Proof.Machine

theorem permute_outer (t : Tables) (b0 b1 b2 b3 : Bool) :
    permute [b0, b1, b2, b3] (romVector t .outer) = .ok [b0, b3] := rfl

theorem permute_inner (t : Tables) (b0 b1 b2 b3 : Bool) :
    permute [b0, b1, b2, b3] (romVector t .inner) = .ok [b1, b2] := rfl

theorem toInteger_pair (a b : Bool) : toInteger [a, b] = 2 * a.toNat + b.toNat := by
  simp [toInteger_cons, Nat.mul_comm]

/-- The substitution writes the entry at the outer bits' row and the inner bits' column as two bits. -/
theorem sbox_of_entry {t : Tables} {name : SboxName} {b0 b1 b2 b3 : Bool} {entry : Nat}
    (h : romSboxEntry t name (toInteger [b0, b3]) (toInteger [b1, b2]) = some entry) :
    sbox t [b0, b1, b2, b3] name = fromInteger entry Config.sboxOutBits := by
  simp [sbox, permute_outer, permute_inner, h]

/-- A well-formed ROM has an entry of two bits wherever two bits each select the row and the column. -/
theorem wf_romSboxEntry {t : Tables} (h : tablesWellFormed t = true) (name : SboxName)
    (r0 r1 c0 c1 : Bool) :
    ∃ entry, romSboxEntry t name (toInteger [r0, r1]) (toInteger [c0, c1]) = some entry ∧ entry < 4 :=
  sboxShape_entry (wf_sbox h name) (toInteger_lt [r0, r1]) (toInteger_lt [c0, c1])

/-- S0 has the left half, S1 the right half, S0's output first. -/
theorem sboxPair_append {t : Tables} {xL xR a b : BitVector} (hlen : xL.length = xR.length)
    (ha : sbox t xL .s0 = .ok a) (hb : sbox t xR .s1 = .ok b) :
    sboxPair t (xL ++ xR) = .ok (a ++ b) := by
  have hs : split (xL ++ xR) = .ok (xL, xR) := split_merge hlen
  simp [sboxPair, hs, ha, hb, merge]

/-- Settles O26: the entry is there (`wf_romSboxEntry`), the substitution answers its two bits
(`sbox_of_entry`), and the pair puts the two outputs one after the other (`sboxPair_append`). -/
theorem sboxLooksUpOuterRowInnerColumn : Obligations.SboxLooksUpOuterRowInnerColumn := by
  refine ⟨fun t name b0 b1 b2 b3 h => ?_, fun t xL xR h hL hR => ?_, by decide, by decide⟩
  · obtain ⟨entry, he, hlt⟩ := wf_romSboxEntry h name b0 b3 b1 b2
    obtain ⟨r, hr, hlen, hval⟩ := fromInteger_ok (width := Config.sboxOutBits) hlt
    refine ⟨entry, r, ?_, Nat.le_of_lt_succ hlt, (sbox_of_entry he).trans hr, hlen, hval⟩
    rw [← toInteger_pair, ← toInteger_pair, he]
  · obtain ⟨a, ha, hal⟩ := sbox_answers h hL .s0
    obtain ⟨b, hb, hbl⟩ := sbox_answers h hR .s1
    exact ⟨a, b, ha, hb, sboxPair_append (hL.trans hR.symm) ha hb, by simp [hal, hbl]⟩

/-- Settles O27: the table is 16 closed lines, each evaluated. -/
theorem sboxesUnderTheDefaultTables : Obligations.SboxesUnderTheDefaultTables := by
  unfold Obligations.SboxesUnderTheDefaultTables
  decide

end Sys2Proof.Machine
end

section
/-! PROOFS. The key schedule: each working value as its step binds it, and every round key as one fixed
gather of the master key (`42_key_schedule.md` R120 to R128). -/

namespace Sys2Proof.Machine

/-! ### More rules of the utilities -/

/-- `permute` answers `r` exactly when every index is valid and `r` holds the elements they name. -/
theorem permute_eq_ok_iff {v r : BitVector} {ix : List Nat} :
    permute v ix = .ok r ↔ (∀ i ∈ ix, i < v.length) ∧ r = ix.map fun i => v.getD i false := by
  refine ⟨permute_inv, ?_⟩
  rintro ⟨hvalid, rfl⟩
  exact permute_ok hvalid

/-- A gather by a permutation of the indices permutes the elements. -/
theorem permute_perm {v r : BitVector} {ix : List Nat} (hix : ix.Perm (List.range v.length))
    (h : permute v ix = .ok r) : r.Perm v := by
  obtain ⟨-, rfl⟩ := permute_inv h
  obtain ⟨-, hv⟩ := permute_inv (permute_range v)
  exact (hix.map _).trans (.of_eq hv.symm)

/-- A gather of a gather is one gather. -/
theorem permute_permute {v u w : BitVector} {ix jx : List Nat} (hu : permute v ix = .ok u)
    (hw : permute u jx = .ok w) : permute v (jx.map fun j => ix.getD j 0) = .ok w := by
  obtain ⟨hix, rfl⟩ := permute_inv hu
  obtain ⟨hjx, rfl⟩ := permute_inv hw
  simp only [List.length_map] at hjx
  refine permute_eq_ok_iff.mpr ⟨?_, ?_⟩
  · simp only [List.forall_mem_map]
    intro j hj
    rw [List.getD_eq_getElem _ _ (hjx j hj)]
    exact hix _ (List.getElem_mem _)
  · rw [List.map_map]
    refine List.map_congr_left fun j hj => ?_
    simp [hjx j hj]

/-- Gathers by two index lists, one after the other. -/
theorem permute_append {v r s : BitVector} {ix jx : List Nat} (hr : permute v ix = .ok r)
    (hs : permute v jx = .ok s) : permute v (ix ++ jx) = .ok (merge r s) := by
  obtain ⟨hix, rfl⟩ := permute_inv hr
  obtain ⟨hjx, rfl⟩ := permute_inv hs
  refine permute_eq_ok_iff.mpr ⟨?_, by simp [merge]⟩
  simpa [or_imp, forall_and] using ⟨hix, hjx⟩

/-- Rotating the index list rotates what it gathers. -/
theorem permute_rotate {v r : BitVector} {ix : List Nat} (h : permute v ix = .ok r) (n : Nat) :
    permute v (ix.rotate n) = .ok (rotateLeft r n) := by
  obtain ⟨hix, rfl⟩ := permute_inv h
  refine permute_eq_ok_iff.mpr ⟨by simpa using hix, ?_⟩
  rw [rotateLeft_natCast, List.map_rotate]

/-- The halves of what an index list gathers are what its halves gather. -/
theorem permute_halves {v r a b : BitVector} {ix : List Nat} {n : Nat} (h : permute v ix = .ok r)
    (hs : split r = .ok (a, b)) (hn : ix.length = 2 * n) :
    permute v (ix.take n) = .ok a ∧ permute v (ix.drop n) = .ok b := by
  have hrl : r.length = 2 * n := (permute_length h).trans hn
  obtain ⟨hix, rfl⟩ := permute_inv h
  rw [split_ok (by omega), hrl, Nat.mul_div_cancel_left n two_pos] at hs
  cases hs
  exact ⟨permute_eq_ok_iff.mpr ⟨fun i hi => hix i (List.mem_of_mem_take hi), List.map_take.symm⟩,
    permute_eq_ok_iff.mpr ⟨fun i hi => hix i (List.mem_of_mem_drop hi), List.map_drop.symm⟩⟩

/-- A gather is linear over exclusive or. -/
theorem permute_xor {a b x p q r : BitVector} {ix : List Nat} (hx : xorBits a b = .ok x)
    (hp : permute a ix = .ok p) (hq : permute b ix = .ok q) (hr : permute x ix = .ok r) :
    xorBits p q = .ok r := by
  obtain ⟨ha, rfl⟩ := permute_inv hp
  obtain ⟨hb, rfl⟩ := permute_inv hq
  obtain ⟨hxv, rfl⟩ := permute_inv hr
  obtain ⟨-, -, hbit⟩ := xorBits_eq_ok_iff.mp hx
  refine xorBits_eq_ok_iff.mpr ⟨by simp, by simp, fun n _ _ hn => ?_⟩
  have hi : ix[n]'(by simpa using hn) ∈ ix := List.getElem_mem _
  simpa [ha _ hi, hb _ hi, hxv _ hi] using hbit _ (ha _ hi) (hb _ hi) (hxv _ hi)

/-- A gather of a constant vector is constant. -/
theorem permute_replicate {n : Nat} {b : Bool} {ix : List Nat} {r : BitVector}
    (h : permute (List.replicate n b) ix = .ok r) : r = List.replicate ix.length b := by
  refine List.eq_replicate_iff.mpr ⟨permute_length h, fun c hc => ?_⟩
  obtain ⟨i, hi, rfl⟩ := List.mem_iff_getElem.mp hc
  have hix : ix[i]? = some (ix[i]'(permute_length h ▸ hi)) := List.getElem?_eq_getElem _
  have hval := permute_getElem? h hix
  rw [List.getElem?_eq_getElem hi] at hval
  exact List.eq_of_mem_replicate (List.mem_of_getElem? hval.symm)

/-- The elements of the two halves of a vector (R93). -/
theorem split_getElem? {v a b : BitVector} {n : Nat} (hs : split v = .ok (a, b))
    (hn : v.length = 2 * n) :
    a.length = n ∧ b.length = n ∧ ∀ i < n, a[i]? = v[i]? ∧ b[i]? = v[n + i]? := by
  obtain ⟨a', b', hs', rfl, hb, rfl⟩ := split_answers hn
  obtain ⟨rfl, rfl⟩ : a' = a ∧ b' = b := by simpa [hs'] using hs
  exact ⟨rfl, hb, fun i hi => ⟨(merge_getElem?_left hi).symm, (merge_getElem?_right a' b' i).symm⟩⟩

/-- A vector of `n` bits shifted by `k` places has `n` bits, each the one `k` places further on (R95). -/
theorem rotateLeft_getElem? {v w : BitVector} {n : Nat} (k : Nat) (hw : w = rotateLeft v k)
    (hn : v.length = n) : w.length = n ∧ ∀ i < n, w[i]? = v[(i + k) % n]? := by
  subst hw hn
  refine ⟨rotateLeft_length v k, fun i hi => ?_⟩
  rw [rotateLeft_natCast, List.getElem?_rotate hi]

/-! ### The steps of the key schedule -/

/-- The working values `v` of the key schedule on `k`, each bound as its step says (R120 to R125). -/
structure KeyScheduleSteps (t : Tables) (k : BitVector) (v : KeyValues) : Prop where
  k_eq : v.k = k
  p10 : permute k t.p10Vector = .ok v.kP10
  halves : split v.kP10 = .ok (v.kL, v.kR)
  kL1_eq : v.kL1 = rotateLeft v.kL 1
  kR1_eq : v.kR1 = rotateLeft v.kR 1
  p8_first : permute (merge v.kL1 v.kR1) t.p8Vector = .ok v.key1
  kL2_eq : v.kL2 = rotateLeft v.kL1 2
  kR2_eq : v.kR2 = rotateLeft v.kR1 2
  p8_second : permute (merge v.kL2 v.kR2) t.p8Vector = .ok v.key2

/-- The key schedule answers `v` exactly when its steps bind `v`. -/
theorem keySchedule_eq_ok_iff {t : Tables} {k : BitVector} {v : KeyValues} :
    keySchedule t k = .ok v ↔ KeyScheduleSteps t k v := by
  constructor
  · intro h
    simp only [keySchedule, romVector] at h
    cases hp : permute k t.p10Vector with
    | error e => simp [hp] at h
    | ok p =>
    cases hs : split p with
    | error e => simp [hp, hs] at h
    | ok halves =>
    obtain ⟨a, b⟩ := halves
    cases h1 : permute (merge (rotateLeft a 1) (rotateLeft b 1)) t.p8Vector with
    | error e => simp [hp, hs, h1] at h
    | ok q1 =>
    cases h2 : permute (merge (rotateLeft (rotateLeft a 1) 2) (rotateLeft (rotateLeft b 1) 2))
        t.p8Vector with
    | error e => simp [hp, hs, h1, h2] at h
    | ok q2 =>
    simp only [hp, hs, h1, h2, Except_bind_ok, Except_pure, Except.ok.injEq] at h
    subst h
    exact ⟨rfl, hp, hs, rfl, rfl, h1, rfl, rfl, h2⟩
  · cases v
    rintro ⟨hk, hp, hs, hL1, hR1, h1, hL2, hR2, h2⟩
    dsimp only at *
    subst hk hL1 hR1 hL2 hR2
    simp [keySchedule, romVector, hp, hs, h1, h2]

/-- The master-key bits that the two halves hold, in order, when each is shifted by `n` places. -/
def shiftedSource (t : Tables) (n : Nat) : List Nat :=
  (t.p10Vector.take 5).rotate n ++ (t.p10Vector.drop 5).rotate n

/-- The master-key bit that each bit of a round key copies, the round key being the `P8` of the halves
shifted by `n` places. -/
def roundKeySource (t : Tables) (n : Nat) : List Nat :=
  t.p8Vector.map fun j => (shiftedSource t n).getD j 0

section
variable {t : Tables} (h : tablesWellFormed t = true)
include h

theorem wf_p10_perm : t.p10Vector.Perm (List.range 10) :=
  permutationVector_iff_perm.mp (wf_parts h).1

theorem roundKeySource_length (n : Nat) : (roundKeySource t n).length = 8 := by
  rw [roundKeySource, List.length_map, (wf_p8 h).1]

theorem KeyScheduleSteps.kP10_length {k : BitVector} {v : KeyValues} (s : KeyScheduleSteps t k v) :
    v.kP10.length = 10 := (permute_length s.p10).trans (wf_p10 h).1

/-- The second shift makes three places in all. -/
theorem KeyScheduleSteps.second_shift {k : BitVector} {v : KeyValues} (s : KeyScheduleSteps t k v) :
    v.kL2 = rotateLeft v.kL 3 ∧ v.kR2 = rotateLeft v.kR 3 := by
  obtain ⟨hL, hR, -⟩ := split_getElem? (n := 5) s.halves (s.kP10_length h)
  constructor
  · rw [s.kL2_eq, s.kL1_eq]; exact rotateLeft_rotateLeft (by omega) 1 2
  · rw [s.kR2_eq, s.kR1_eq]; exact rotateLeft_rotateLeft (by omega) 1 2

/-- Each round key is one gather of the master key: `key1` from the halves shifted by one place, `key2`
from the halves shifted by three (R128). -/
theorem KeyScheduleSteps.roundKeys_gather {k : BitVector} {v : KeyValues}
    (s : KeyScheduleSteps t k v) :
    permute k (roundKeySource t 1) = .ok v.key1 ∧ permute k (roundKeySource t 3) = .ok v.key2 := by
  obtain ⟨hL2, hR2⟩ := s.second_shift h
  obtain ⟨hL, hR⟩ := permute_halves (n := 5) s.p10 s.halves (wf_p10 h).1
  have hshift (n : Nat) :
      permute k (shiftedSource t n) = .ok (merge (rotateLeft v.kL n) (rotateLeft v.kR n)) :=
    permute_append (permute_rotate hL n) (permute_rotate hR n)
  constructor
  · have h8 := s.p8_first
    rw [s.kL1_eq, s.kR1_eq] at h8
    exact permute_permute (hshift 1) h8
  · have h8 := s.p8_second
    rw [hL2, hR2] at h8
    exact permute_permute (hshift 3) h8

/-- On a 10-bit key the key schedule answers, by its steps. -/
theorem keySchedule_answers_steps {k : BitVector} (hk : k.length = 10) :
    ∃ v, keySchedule t k = .ok v ∧ KeyScheduleSteps t k v ∧ v.key1.length = 8 ∧ v.key2.length = 8 := by
  obtain ⟨v, hv, h1, h2⟩ := keySchedule_answers h hk
  exact ⟨v, hv, keySchedule_eq_ok_iff.mp hv, h1, h2⟩

/-- On a 10-bit key the key schedule answers two gathers of the key. -/
theorem keySchedule_answers_gathers {k : BitVector} (hk : k.length = 10) :
    ∃ v, keySchedule t k = .ok v ∧
      permute k (roundKeySource t 1) = .ok v.key1 ∧ permute k (roundKeySource t 3) = .ok v.key2 := by
  obtain ⟨v, hv, s, -, -⟩ := keySchedule_answers_steps h hk
  exact ⟨v, hv, s.roundKeys_gather h⟩

/-- A constant key gives two constant round keys (R128). -/
theorem keySchedule_replicate (b : Bool) :
    ∃ v, keySchedule t (List.replicate 10 b) = .ok v ∧
      v.key1 = List.replicate 8 b ∧ v.key2 = List.replicate 8 b := by
  obtain ⟨v, hv, h1, h2⟩ := keySchedule_answers_gathers h (List.length_replicate (a := b))
  refine ⟨v, hv, ?_, ?_⟩
  · rw [permute_replicate h1, roundKeySource_length h]
  · rw [permute_replicate h2, roundKeySource_length h]

/-- The entries of a round key's source are places of a 10-bit key. -/
theorem roundKeySource_lt : (∀ j ∈ roundKeySource t 1, j < 10) ∧ ∀ j ∈ roundKeySource t 3, j < 10 := by
  obtain ⟨v, -, h1, h2⟩ := keySchedule_answers_gathers h (List.length_replicate (n := 10) (a := false))
  simpa using And.intro (permute_inv h1).1 (permute_inv h2).1

end

/-- Settles O28: the schedule's steps (`keySchedule_eq_ok_iff`), each read element by element by the rule of
the utility it uses; rotations add up, so the second shift is by three places in all. -/
theorem keyScheduleBindsEveryWorkingValue : Obligations.KeyScheduleBindsEveryWorkingValue := by
  refine ⟨fun t k h hk => ?_, by decide⟩
  obtain ⟨v, hv, s, h1, h2⟩ := keySchedule_answers_steps h hk
  obtain ⟨hL, hR, hhalf⟩ := split_getElem? (n := 5) s.halves (s.kP10_length h)
  obtain ⟨hL1, eL1⟩ := rotateLeft_getElem? 1 s.kL1_eq hL
  obtain ⟨hR1, eR1⟩ := rotateLeft_getElem? 1 s.kR1_eq hR
  obtain ⟨hL2, eL2⟩ := rotateLeft_getElem? 2 s.kL2_eq hL1
  obtain ⟨hR2, eR2⟩ := rotateLeft_getElem? 2 s.kR2_eq hR1
  obtain ⟨-, eL3⟩ := rotateLeft_getElem? 3 (s.second_shift h).1 hL
  obtain ⟨-, eR3⟩ := rotateLeft_getElem? 3 (s.second_shift h).2 hR
  have hcount := (permute_perm (hk ▸ wf_p10_perm h) s.p10).count_eq true
  exact ⟨v, hv, s.k_eq, ⟨s.kP10_length h, fun _ _ => permute_getElem? s.p10, hcount⟩,
    ⟨hL, hR, hhalf⟩, ⟨hL1, hR1, fun i hi => ⟨eL1 i hi, eR1 i hi⟩⟩,
    ⟨h1, fun _ _ => permute_getElem? s.p8_first⟩,
    ⟨hL2, hR2, fun i hi => ⟨eL2 i hi, eR2 i hi, eL3 i hi, eR3 i hi⟩⟩,
    h2, fun _ _ => permute_getElem? s.p8_second⟩

/-- Settles O30: each round key is a gather of the master key by an index list that the tables fix
(`KeyScheduleSteps.roundKeys_gather`), and a gather is linear over exclusive or and keeps constant
vectors constant. -/
theorem keyScheduleOnlyMovesBits : Obligations.KeyScheduleOnlyMovesBits := by
  intro t h
  refine ⟨⟨roundKeySource t 1, roundKeySource t 3, roundKeySource_length h 1,
    roundKeySource_length h 3, (roundKeySource_lt h).1, (roundKeySource_lt h).2, fun k hk => ?_⟩,
    fun k k' hk hk' => ?_, keySchedule_replicate h⟩
  · obtain ⟨v, hv, g1, g2⟩ := keySchedule_answers_gathers h hk
    exact ⟨v, hv, (permute_length g1).trans (roundKeySource_length h 1),
      (permute_length g2).trans (roundKeySource_length h 3),
      fun _ _ => permute_getElem? g1, fun _ _ => permute_getElem? g2⟩
  · obtain ⟨x, hx, hxl⟩ := xor_answers hk hk'
    obtain ⟨v, hv, g1, g2⟩ := keySchedule_answers_gathers h hk
    obtain ⟨v', hv', g1', g2'⟩ := keySchedule_answers_gathers h hk'
    obtain ⟨vx, hvx, gx1, gx2⟩ := keySchedule_answers_gathers h hxl
    exact ⟨x, v, v', vx, hx, hv, hv', hvx, permute_xor hx g1 g1' gx1, permute_xor hx g2 g2' gx2⟩

/-- Settles O29: the given values are what the steps bind (`keySchedule_eq_ok_iff`), each step evaluated on
ten named bits; constant keys are a case of `keySchedule_replicate`. -/
theorem keyScheduleClosedForm : Obligations.KeyScheduleClosedForm := by
  refine ⟨fun _ _ _ _ _ _ _ _ _ _ => ?_, keySchedule_replicate (by decide)⟩
  exact keySchedule_eq_ok_iff.mpr
    ⟨rfl, rfl, split_merge (a := [_, _, _, _, _]) rfl, rfl, rfl, rfl, rfl, rfl, rfl⟩

end Sys2Proof.Machine
end

section
/-! PROOFS. The cipher: each working value of a round and of the cipher as its step binds it
(`43_feistel.md` R130 to R142). -/

namespace Sys2Proof.Machine

/-- A sequence of two computations answers when the first answers and the second does on its answer. -/
theorem bind_eq_ok_iff {ε α β : Type} {x : Except ε α} {f : α → Except ε β} {r : β} :
    x >>= f = .ok r ↔ ∃ a, x = .ok a ∧ f a = .ok r := by
  cases x <;> simp

theorem xorBits_length {a b r : BitVector} (h : xorBits a b = .ok r) : r.length = a.length :=
  (xorBits_eq_ok_iff.mp h).2.1

/-- Each half of an 8-bit vector has its own S-box: S0 the left, S1 the right, S0's output first
(R134, R135). -/
theorem sboxPair_of_halves {t : Tables} {x xL xR so : BitVector} (h : tablesWellFormed t = true)
    (hx : x.length = 8) (hs : split x = .ok (xL, xR)) (hso : sboxPair t x = .ok so) :
    ∃ a b, sbox t xL .s0 = .ok a ∧ sbox t xR .s1 = .ok b ∧ a.length = 2 ∧ b.length = 2 ∧
      so = a ++ b := by
  obtain ⟨hL, hR, -⟩ := split_getElem? (n := 4) hs hx
  obtain ⟨a, ha, hal⟩ := sbox_answers h hL .s0
  obtain ⟨b, hb, hbl⟩ := sbox_answers h hR .s1
  have hpair : sboxPair t x = .ok (merge a b) := by simp [sboxPair, hs, ha, hb]
  exact ⟨a, b, ha, hb, hal, hbl, Except.ok.inj (hso.symm.trans hpair)⟩

/-- The working values `v` of one round, each bound as its step says (R132 to R137). -/
structure RoundSteps (t : Tables) (lPrev rPrev kr : BitVector) (v : RoundValues) : Prop where
  expand : permute rPrev t.epVector = .ok v.e
  mixKey : xorBits v.e kr = .ok v.x
  halves : split v.x = .ok (v.xL, v.xR)
  substitute : sboxPair t v.x = .ok v.so
  p4 : permute v.so t.p4Vector = .ok v.f
  mixLeft : xorBits v.f lPrev = .ok v.newR

/-- A round answers `v` exactly when its steps bind `v`. -/
theorem feistelRound_eq_ok_iff {t : Tables} {lPrev rPrev kr : BitVector} {v : RoundValues} :
    feistelRound t lPrev rPrev kr = .ok v ↔ RoundSteps t lPrev rPrev kr v := by
  constructor
  · intro h
    simp only [feistelRound, romVector, bind_eq_ok_iff, Except_pure, Except.ok.injEq] at h
    obtain ⟨e, he, x, hx, ⟨xL, xR⟩, hs, so, hso, f, hf, newR, hn, rfl⟩ := h
    exact ⟨he, hx, hs, hso, hf, hn⟩
  · rintro ⟨he, hx, hs, hso, hf, hn⟩
    simp [feistelRound, romVector, he, hx, hs, hso, hf, hn]

/-- The working values `v` of the cipher, each bound as its step says (R130, R131, R138 to R141). -/
structure CipherSteps (t : Tables) (b key1 key2 : BitVector) (mode : Mode) (v : CipherValues) :
    Prop where
  b_eq : v.b = b
  keys : (v.kA, v.kB) = roundKeys key1 key2 mode
  ip : permute b t.ipVector = .ok v.ipb
  halves : split v.ipb = .ok (v.l0, v.r0)
  first : feistelRound t v.l0 v.r0 v.kA = .ok v.round1
  l1_eq : v.l1 = v.r0
  r1_eq : v.r1 = v.round1.newR
  second : feistelRound t v.l1 v.r1 v.kB = .ok v.round2
  newR2_eq : v.newR2 = v.round2.newR
  pre_eq : v.pre = merge v.newR2 v.r1
  ipInverse : permute v.pre t.ipInverseVector = .ok v.out

/-- The cipher answers `v` exactly when its steps bind `v`. -/
theorem cipher_eq_ok_iff {t : Tables} {b key1 key2 : BitVector} {mode : Mode} {v : CipherValues} :
    cipher t b key1 key2 mode = .ok v ↔ CipherSteps t b key1 key2 mode v := by
  constructor
  · intro h
    simp only [cipher, romVector, bind_eq_ok_iff, Except_pure, Except.ok.injEq] at h
    obtain ⟨ipb, hip, ⟨l0, r0⟩, hs, v1, h1, v2, h2, out, ho, rfl⟩ := h
    exact ⟨rfl, rfl, hip, hs, h1, rfl, rfl, h2, rfl, rfl, ho⟩
  · cases v
    rintro ⟨hb, hk, hip, hs, h1, hl1, hr1, h2, hn2, hpre, ho⟩
    dsimp only at *
    subst hb hl1 hr1 hn2 hpre
    simp [cipher, romVector, ← hk, hip, hs, h1, h2, ho]

section
variable {t : Tables} (h : tablesWellFormed t = true)
include h

/-- The steps of a round, each read element by element by the rule of the utility it uses. -/
theorem RoundSteps.spec {lPrev rPrev kr : BitVector} {v : RoundValues}
    (s : RoundSteps t lPrev rPrev kr v) : Safety.RoundSpec t lPrev rPrev kr v := by
  have hel : v.e.length = 8 := (permute_length s.expand).trans (wf_ep h).1
  have hxl : v.x.length = 8 := (xorBits_length s.mixKey).trans hel
  have hfl : v.f.length = 4 := (permute_length s.p4).trans (wf_p4 h).1
  obtain ⟨a, b, ha, hb, hal, hbl, hso⟩ := sboxPair_of_halves h hxl s.halves s.substitute
  have hffun : ffun t rPrev kr = .ok v.f := by
    simp [ffun, romVector, s.expand, s.mixKey, s.substitute, s.p4]
  exact ⟨⟨hel, fun _ _ => permute_getElem? s.expand⟩,
    ⟨hxl, fun _ _ _ => xorBits_getElem? s.mixKey⟩,
    split_getElem? s.halves hxl,
    ⟨a, b, ha, hb, hal, hbl, hso, s.substitute⟩,
    ⟨hfl, fun _ _ => permute_getElem? s.p4⟩,
    hffun,
    (xorBits_length s.mixLeft).trans hfl, fun _ _ _ => xorBits_getElem? s.mixLeft⟩

/-- On a block and round keys of 8 bits the cipher answers, by its steps. -/
theorem cipher_answers_steps {b key1 key2 : BitVector} (hb : b.length = 8) (h1 : key1.length = 8)
    (h2 : key2.length = 8) (mode : Mode) :
    ∃ v, cipher t b key1 key2 mode = .ok v ∧ CipherSteps t b key1 key2 mode v ∧ v.out.length = 8 := by
  obtain ⟨v, hv, hout⟩ := cipher_answers h hb h1 h2 mode
  exact ⟨v, hv, cipher_eq_ok_iff.mp hv, hout⟩

end

/-- Settles O31: the cipher's steps (`cipher_eq_ok_iff`) and those of its two rounds
(`feistelRound_eq_ok_iff`), read element by element; the modes differ in `roundKeys` alone. -/
theorem cipherBindsEveryWorkingValue : Obligations.CipherBindsEveryWorkingValue := by
  refine ⟨fun t b key1 key2 mode h hb h1 h2 => ?_, fun _ _ _ _ => rfl, by decide⟩
  obtain ⟨v, hv, s, hout⟩ := cipher_answers_steps h hb h1 h2 mode
  have hipl : v.ipb.length = 8 := (permute_length s.ip).trans (wf_ip h).1
  exact ⟨v, hv, s.b_eq,
    by rintro rfl; exact Prod.mk.inj s.keys, by rintro rfl; exact Prod.mk.inj s.keys,
    ⟨hipl, fun _ _ => permute_getElem? s.ip⟩,
    split_getElem? s.halves hipl,
    (feistelRound_eq_ok_iff.mp s.first).spec h, s.l1_eq, s.r1_eq,
    (feistelRound_eq_ok_iff.mp s.second).spec h, s.newR2_eq, s.pre_eq,
    hout, fun _ _ => permute_getElem? s.ipInverse⟩

end Sys2Proof.Machine
end

section
/-! PROOFS. The step as the decoded operation, the response words of `Engine`, and runs
(`44_commands.md` R156; `70_reset_and_hazards.md` R199). -/

namespace Sys2Proof.Machine

open Safety

/-- Settles O6: both sides are the request's answer, whose decoder case the hypothesis names. -/
theorem stepRunsTheDecodedOperation : Obligations.StepRunsTheDecodedOperation := by
  intro s w rest i hw hq hd
  rw [step, if_pos hw, serve, hq]
  dsimp only
  rw [answer, hd]

/-- The word of an error response (R170): the code, shifted to the status field. -/
theorem errorResponse_eq (kind : ErrorKind) :
    errorResponse kind = BitVec.ofNat 32 (statusCode kind <<< 28) := by
  simp [errorResponse, response]

/-- A word with status 0 and a zero field is the word of its two result fields (R66). -/
theorem eq_ofNat_of_fields {rsp : Word} {hi lo : Nat} (hs : statusField rsp = 0)
    (hz : zeroField rsp = 0) (hhi : hiField rsp = hi) (hlo : loField rsp = lo) :
    rsp = BitVec.ofNat 32 ((hi <<< 8) ||| lo) := by
  have hlt : lo < 2 ^ 8 := hlo ▸ field_lt rsp 7 0
  have hrsp := rsp.isLt
  simp only [statusField, zeroField, hiField, loField, field_eq] at hs hz hhi hlo
  rw [shift_or hlt]
  refine BitVec.eq_of_toNat_eq ?_
  rw [BitVec.toNat_ofNat]
  omega

theorem eq_ofNat_of_block_fields {rsp : Word} {lo : Nat} (hs : statusField rsp = 0)
    (hz : zeroField rsp = 0) (hhi : hiField rsp = 0) (hlo : loField rsp = lo) :
    rsp = BitVec.ofNat 32 lo := by
  simpa using eq_ofNat_of_fields hs hz hhi hlo

/-- The status of the engine's response (R178): OK, UnknownMode or IllegalRequest. -/
theorem engine_status {t : Tables} {w rsp : Word} (h : tablesWellFormed t = true)
    (he : engine t w = some rsp) :
    statusField rsp = 0 ∨ statusField rsp = 3 ∨ statusField rsp = 5 := by
  rw [engine, if_pos h] at he
  obtain hr | hr | ⟨hi, lo, hhi, hlo, hr⟩ := engineResult_cases h w
  · rw [hr] at he
    cases he
    exact .inr (.inr (statusField_errorResponse _))
  · rw [hr] at he
    cases he
    exact .inr (.inl (statusField_errorResponse _))
  · rw [hr] at he
    cases he
    exact .inl (response_fields (by decide) hhi hlo).1

/-- Settles O7: the response is the engine's (`step_of_request`), and its layout
(`step_response_layout`) fixes the whole word. -/
theorem stepAnswersAsTheEngineFunction : Obligations.StepAnswersAsTheEngineFunction := by
  intro s w rest hw hq
  obtain ⟨rsp, he⟩ := engine_answers hw w
  have hstep := step_of_request hw hq he
  obtain ⟨rsp', hstep', -, hzero, -, herror, hstatus, hresult⟩ := step_response_layout hw hq
  obtain rfl : rsp = rsp' := by simpa using hstep.symm.trans hstep'
  have hblock {i : Instr} {lo : Nat} (hd : decode w = .ok i) :
      hiField rsp = 0 → loField rsp = lo → rsp = BitVec.ofNat 32 lo :=
    eq_ofNat_of_block_fields (hstatus i hd) hzero
  refine ⟨rsp, he, hstep, engine_status hw he, fun kind info hd => ?error, fun _ hd => ?keygen,
    fun _ _ _ hd => ?cipherE, fun _ _ _ hd => ?cipherD, fun _ _ hd => ?encrypt,
    fun _ _ hd => ?decrypt⟩
  case error => rw [herror kind info hd, errorResponse_eq]
  case keygen =>
    obtain ⟨v, hv, hhi, hlo⟩ := hresult _ hd
    exact ⟨v, hv, eq_ofNat_of_fields (hstatus _ hd) hzero hhi hlo⟩
  case cipherE | cipherD =>
    obtain ⟨hhi, v, hv, hlo⟩ := hresult _ hd
    exact ⟨v, hv, hblock hd hhi hlo⟩
  case encrypt | decrypt =>
    obtain ⟨hhi, ks, v, hks, hv, hlo⟩ := hresult _ hd
    exact ⟨ks, v, hks, hv, hblock hd hhi hlo⟩

/-- A run with as many steps as there are requests, over the list of requests. -/
theorem run_answers (requests : List Word) {s : State} (hw : tablesWellFormed s.rom = true)
    (hq : s.requests = requests) :
    ∃ rsps, List.Forall₂ (fun w rsp => engine s.rom w = some rsp) requests rsps ∧
      Host.Core.run core requests.length s
        = .next { s with requests := [], responses := s.responses ++ rsps } := by
  induction requests generalizing s with
  | nil =>
    have hs : s = { s with requests := [], responses := s.responses ++ [] } := by
      obtain ⟨_, _, _⟩ := s
      cases hq
      rw [List.append_nil]
    exact ⟨[], .nil, (run_zero s).trans (congrArg _ hs)⟩
  | cons w rest ih =>
    obtain ⟨rsp, he⟩ := engine_answers hw w
    obtain ⟨rsps, hall, hrun⟩ :=
      ih (s := { s with requests := rest, responses := s.responses ++ [rsp] }) hw rfl
    refine ⟨rsp :: rsps, .cons he hall, ?_⟩
    rw [List.length_cons, run_of_step (step_of_request hw hq he), hrun, List.append_assoc,
      List.singleton_append]

/-- Settles O39, by induction on the requests (`run_answers`). -/
theorem runAnswersEveryRequestInOrder : Obligations.RunAnswersEveryRequestInOrder :=
  fun s hw => run_answers s.requests hw rfl

end Sys2Proof.Machine
end

section
/-! PROOFS. Each mode of the cipher undoes the other, on any pair of round keys and any well-formed
tables (`43_feistel.md` R144). -/

namespace Sys2Proof.Machine

/-- The other mode (R17). -/
def oppositeMode : Mode → Mode
  | .encrypt => .decrypt
  | .decrypt => .encrypt

/-- The other mode applies the two round keys in the other order (R130). -/
theorem roundKeys_oppositeMode {key1 key2 kA kB : BitVector} {mode : Mode}
    (h : (kA, kB) = roundKeys key1 key2 mode) :
    (kB, kA) = roundKeys key1 key2 (oppositeMode mode) := by
  cases mode <;> cases h <;> rfl

theorem merge_of_split {v a b : BitVector} (h : split v = .ok (a, b)) : merge a b = v := by
  by_cases hv : v.length % 2 = 0
  · rw [split_ok hv] at h
    cases h
    exact List.take_append_drop _ v
  · rw [split_of_odd hv] at h
    cases h

/-- A round with the new right half in the place of the left half gives the left half back: `F` is the
same, and exclusive or with it twice changes nothing. -/
theorem feistelRound_undone {t : Tables} {l r kr : BitVector} {v : RoundValues}
    (h : feistelRound t l r kr = .ok v) :
    feistelRound t v.newR r kr = .ok { v with newR := l } := by
  obtain ⟨expand, mixKey, halves, substitute, p4, mixLeft⟩ := feistelRound_eq_ok_iff.mp h
  exact feistelRound_eq_ok_iff.mpr ⟨expand, mixKey, halves, substitute, p4,
    xorBits_comm (xorBits_undone (xorBits_comm mixLeft))⟩

/-- The working values of the cipher in the other mode on the output of a run with the values `v`
(`cipher_undone`): it passes through the same halves in the opposite order. -/
def backwards (v : CipherValues) : CipherValues where
  b := v.out
  kA := v.kB
  kB := v.kA
  ipb := v.pre
  l0 := v.newR2
  r0 := v.r1
  round1 := { v.round2 with newR := v.r0 }
  l1 := v.r1
  r1 := v.r0
  round2 := { v.round1 with newR := v.l0 }
  newR2 := v.l0
  pre := v.ipb
  out := v.b

section
variable {t : Tables} (h : tablesWellFormed t = true)
include h

theorem feistelRound_newR_length {l r kr : BitVector} {v : RoundValues}
    (hv : feistelRound t l r kr = .ok v) : v.newR.length = 4 := by
  obtain ⟨-, -, -, -, p4, mixLeft⟩ := feistelRound_eq_ok_iff.mp hv
  exact (xorBits_length mixLeft).trans ((permute_length p4).trans (wf_p4 h).1)

/-- The cipher in the other mode leads the output back to the block: `IP` undoes the inverse `IP`, each
round undoes the other run's round under the same key, and the inverse `IP` undoes `IP`. -/
theorem cipher_undone {b key1 key2 : BitVector} {mode : Mode} {v : CipherValues}
    (hv : cipher t b key1 key2 mode = .ok v) (hb : b.length = 8) :
    cipher t v.out key1 key2 (oppositeMode mode) = .ok (backwards v) := by
  obtain ⟨hvb, keys, ip, halves, first, hl1, hr1, second, hnewR2, hpre, ipInverse⟩ :=
    cipher_eq_ok_iff.mp hv
  obtain ⟨-, -, hback, -⟩ := initialPermutationsAreInverse t h
  have hr1l : v.r1.length = 4 := hr1 ▸ feistelRound_newR_length h first
  have hnewR2l : v.newR2.length = 4 := hnewR2 ▸ feistelRound_newR_length h second
  have hprel : v.pre.length = 8 := by rw [hpre, merge_length, hnewR2l, hr1l]
  have out_ip : permute v.out t.ipVector = .ok v.pre := by
    obtain ⟨-, u, hu, hui⟩ := hback v.pre hprel
    obtain rfl : v.out = u := Except.ok.inj (ipInverse.symm.trans hu)
    exact hui
  have pre_halves : split v.pre = .ok (v.newR2, v.r1) := by
    rw [hpre, split_merge (hnewR2l.trans hr1l.symm)]
  have second_undone := feistelRound_undone second
  rw [← hnewR2, hl1] at second_undone
  have first_undone := feistelRound_undone first
  rw [← hr1] at first_undone
  have ipb_ipInverse : permute v.ipb t.ipInverseVector = .ok v.b := by
    obtain ⟨⟨u, hu, hub⟩, -⟩ := hback b hb
    obtain rfl : v.ipb = u := Except.ok.inj (ip.symm.trans hu)
    rw [hvb]
    exact hub
  exact cipher_eq_ok_iff.mpr ⟨rfl, roundKeys_oppositeMode keys, out_ip, pre_halves, second_undone, rfl,
    rfl, first_undone, rfl, (merge_of_split halves).symm, ipb_ipInverse⟩

/-- In each mode blocks with one output are one block. -/
theorem cipher_out_inj {b b' key1 key2 : BitVector} {mode : Mode} {v v' : CipherValues}
    (hv : cipher t b key1 key2 mode = .ok v) (hv' : cipher t b' key1 key2 mode = .ok v')
    (hb : b.length = 8) (hb' : b'.length = 8) (hout : v.out = v'.out) : b = b' := by
  have hback := cipher_undone h hv hb
  rw [hout, cipher_undone h hv' hb'] at hback
  have hbv : v'.b = v.b := congrArg CipherValues.out (Except.ok.inj hback)
  rw [← (cipher_eq_ok_iff.mp hv).b_eq, ← (cipher_eq_ok_iff.mp hv').b_eq, hbv]

/-- In each mode the cipher answers an 8-bit block, which the other mode leads back to the block it was
given (R144). -/
theorem cipher_roundTrip {b key1 key2 : BitVector} (hb : b.length = 8) (h1 : key1.length = 8)
    (h2 : key2.length = 8) (mode : Mode) :
    ∃ v d, cipher t b key1 key2 mode = .ok v ∧ v.out.length = 8 ∧
      cipher t v.out key1 key2 (oppositeMode mode) = .ok d ∧ d.out = b := by
  obtain ⟨v, hv, s, hout⟩ := cipher_answers_steps h hb h1 h2 mode
  exact ⟨v, _, hv, hout, cipher_undone h hv hb, s.b_eq⟩

end

end Sys2Proof.Machine
end

section
/-! PROOFS. What each of the five operations answers, its request words and its examples
(`44_commands.md` R150 to R154). -/

namespace Sys2Proof.Machine

/-! ### The response of an operation -/

/-- An operation that has a response gives it and changes nothing else. -/
theorem exec_of_response {i : Instr} {s : State} {rsp : Word}
    (h : operationResponse s.rom i = .ok rsp) :
    exec i s = .next { s with responses := s.responses ++ [rsp] } := by
  rw [exec_eq_finish, h]
  rfl

/-- The examples: an operation's response under the default contents (log 2). -/
theorem exec_of_defaultTables {i : Instr} {s : State} {rsp : Word} (hs : s.rom = defaultTables)
    (h : operationResponse defaultTables i = .ok rsp) :
    exec i s = .next { s with responses := s.responses ++ [rsp] } :=
  exec_of_response (hs ▸ h)

theorem cipherResponse_eq {t : Tables} {b key1 key2 : BitVector} {mode : Mode} {v : CipherValues}
    (hv : cipher t b key1 key2 mode = .ok v) :
    cipherResponse t key1 key2 b mode = .ok (BitVec.ofNat 32 (toInteger v.out)) := by
  simp [cipherResponse, hv, blockResponse, response, statusOk]

theorem blockOpResponse_eq {t : Tables} {key block : BitVector} {mode : Mode} {ks : KeyValues}
    (hks : keySchedule t key = .ok ks) :
    blockOpResponse t key block mode = cipherResponse t ks.key1 ks.key2 block mode := by
  rw [blockOpResponse, hks]
  rfl

section
variable {s : State} {key key1 key2 block : BitVector} {ks : KeyValues} {v : CipherValues}

theorem exec_cipherE_of_cipher (hv : cipher s.rom block key1 key2 .encrypt = .ok v) :
    exec (.cipherE key1 key2 block) s =
      .next { s with responses := s.responses ++ [BitVec.ofNat 32 (toInteger v.out)] } :=
  exec_of_response (cipherResponse_eq hv)

theorem exec_cipherD_of_cipher (hv : cipher s.rom block key1 key2 .decrypt = .ok v) :
    exec (.cipherD key1 key2 block) s =
      .next { s with responses := s.responses ++ [BitVec.ofNat 32 (toInteger v.out)] } :=
  exec_of_response (cipherResponse_eq hv)

/-- CIPHER.D is CIPHER.E on the exchanged pair (R152): the mode selects the order of the round keys, and
nothing else. -/
theorem exec_cipherD_eq_cipherE (key1 key2 block : BitVector) (s : State) :
    exec (.cipherD key1 key2 block) s = exec (.cipherE key2 key1 block) s := rfl

/-- ENCRYPT is CIPHER.E on the key schedule's pair (R153). -/
theorem exec_encrypt_eq_cipherE (hks : keySchedule s.rom key = .ok ks) :
    exec (.encrypt key block) s = exec (.cipherE ks.key1 ks.key2 block) s :=
  congrArg (finish · s) (blockOpResponse_eq hks)

/-- DECRYPT is CIPHER.D on the key schedule's pair (R154). -/
theorem exec_decrypt_eq_cipherD (hks : keySchedule s.rom key = .ok ks) :
    exec (.decrypt key block) s = exec (.cipherD ks.key1 ks.key2 block) s :=
  congrArg (finish · s) (blockOpResponse_eq hks)

end

/-- Blocks with one response are one block. -/
theorem ofNat_toInteger_inj {a b : BitVector} (ha : a.length = 8) (hb : b.length = 8)
    (h : BitVec.ofNat 32 (toInteger a) = BitVec.ofNat 32 (toInteger b)) : a = b := by
  have la := toInteger_lt a
  have lb := toInteger_lt b
  have hn := congrArg BitVec.toNat h
  simp only [BitVec.toNat_ofNat] at hn
  rw [ha] at la
  rw [hb] at lb
  exact toInteger_inj (ha.trans hb.symm) (by omega)

theorem fromInteger_length {n width : Nat} {v : BitVector} (h : fromInteger n width = .ok v) :
    v.length = width := (fromInteger_inv h).2.1

/-! ### KEYGEN -/

/-- Two vectors that differ in one bit have the same gather by any list without that index. -/
theorem permute_set {v : BitVector} {ix : List Nat} {j : Nat} (b : Bool) (hj : j ∉ ix) :
    permute (v.set j b) ix = permute v ix := by
  induction ix with
  | nil => rfl
  | cons i rest ih =>
    obtain ⟨hji, hrest⟩ := not_or.mp (mt List.mem_cons.mpr hj)
    rw [permute, permute, ih hrest, List.getElem?_set_ne hji]

/-- A list of fewer than `n` indices leaves out one of the first `n`. -/
theorem exists_lt_not_mem {ix : List Nat} {n : Nat} (h : ix.length < n) : ∃ j < n, j ∉ ix := by
  by_contra! hall
  have hsub : List.range n ⊆ ix := fun j hj => hall j (List.mem_range.mp hj)
  have hle := (List.nodup_range.subperm hsub).length_le
  rw [List.length_range] at hle
  omega

/-- A gather by fewer indices than the vector has bits gives two different vectors one result. -/
theorem permute_not_injective {ix : List Nat} {n : Nat} (h : ix.length < n) :
    ∃ k k' : BitVector, k.length = n ∧ k'.length = n ∧ k ≠ k' ∧ permute k ix = permute k' ix := by
  obtain ⟨j, hj, hmem⟩ := exists_lt_not_mem h
  refine ⟨List.replicate n false, (List.replicate n false).set j true, by simp, by simp, ?_,
    (permute_set true hmem).symm⟩
  intro heq
  have hbit := congrArg (fun k : BitVector => k[j]?) heq
  simp [hj] at hbit

section
variable {t : Tables} (h : tablesWellFormed t = true)
include h

/-- A round key, being a gather of 8 of the master key's 10 bits, is shared by different master keys. -/
theorem exists_keys_sharing {roundKey : KeyValues → BitVector} {n : Nat}
    (hgather : ∀ {k v}, KeyScheduleSteps t k v → permute k (roundKeySource t n) = .ok (roundKey v)) :
    ∃ k k' v v', k.length = 10 ∧ k'.length = 10 ∧ k ≠ k' ∧ keySchedule t k = .ok v ∧
      keySchedule t k' = .ok v' ∧ roundKey v = roundKey v' := by
  obtain ⟨k, k', hk, hk', hne, hsame⟩ :=
    permute_not_injective (n := 10) (by rw [roundKeySource_length h n]; omega)
  obtain ⟨v, hv, steps, -, -⟩ := keySchedule_answers_steps h hk
  obtain ⟨v', hv', steps', -, -⟩ := keySchedule_answers_steps h hk'
  have hkeys := (hgather steps).symm.trans (hsame.trans (hgather steps'))
  exact ⟨k, k', v, v', hk, hk', hne, hv, hv', Except.ok.inj hkeys⟩

/-- The zero key's pair is two zero round keys, its response the zero word (R150). -/
theorem keygenResponse_zero : keygenResponse t (bits "0000000000") = .ok 0#32 := by
  obtain ⟨v, hv, h1, h2⟩ := keySchedule_replicate h false
  have hkey : bits "0000000000" = List.replicate 10 false := rfl
  rw [hkey, keygenResponse, hv, Except_bind_ok, h1, h2]
  rfl

end

/-- Settles O12: the response is the key schedule's pair (`keygenResponse_answers`); a round key is a gather
of 8 of the 10 key bits, so different
keys share it (`exists_keys_sharing`). -/
theorem keygenAnswersTheKeyPair : Obligations.KeygenAnswersTheKeyPair := by
  refine ⟨fun s key hw hk => ?_, fun w hsel => ?_,
    fun _ _ _ hw hq hop hr => step_of_decode_error hw hq (decode_of_reservedK hop hr),
    fun _ hw => exec_of_response (keygenResponse_zero hw),
    fun _ h => ⟨exists_keys_sharing h fun steps => (steps.roundKeys_gather h).1,
      exists_keys_sharing h fun steps => (steps.roundKeys_gather h).2⟩,
    by decide, fun _ hs => exec_of_defaultTables hs (by decide)⟩
  · obtain ⟨v, hv, h1, h2, hr⟩ := keygenResponse_answers hw hk
    exact ⟨v, hv, h1, h2, exec_of_response hr⟩
  · obtain ⟨key, hkey, hd⟩ := decode_of_selects_keygen (selects_iff.mpr hsel)
    exact ⟨key, hkey, fromInteger_length hkey, hd⟩

/-! ### CIPHER.E and CIPHER.D -/

/-- Settles O13: the other mode leads the response's block back (`cipher_roundTrip`), and with equal keys
exchanging the pair changes nothing. -/
theorem cipherEAnswersTheEncryptedBlock : Obligations.CipherEAnswersTheEncryptedBlock := by
  refine ⟨fun s key1 key2 block hw h1 h2 hb => ?_, fun w hsel => ?_,
    fun _ _ _ hw hq hop hr => step_of_decode_error hw hq (decode_of_reservedC hop hr),
    fun s key block => (exec_cipherD_eq_cipherE key key block s).symm,
    by decide, fun _ hs => exec_of_defaultTables hs (by decide)⟩
  · obtain ⟨v, d, hv, hout, hd, rfl⟩ := cipher_roundTrip hw hb h1 h2 .encrypt
    obtain ⟨hA, hB⟩ := Prod.mk.inj (cipher_eq_ok_iff.mp hv).keys
    exact ⟨v, hv, hout, hA, hB, by simpa using exec_cipherE_of_cipher hv, exec_cipherD_of_cipher hd⟩
  · obtain ⟨key1, key2, block, h1, h2, hb, hd⟩ := decode_of_selects_cipherE (selects_iff.mpr hsel)
    exact ⟨key1, key2, block, h1, h2, hb, fromInteger_length h1, fromInteger_length h2,
      fromInteger_length hb, hd⟩

/-- Settles O14: the cipher in decrypt mode, by its steps; that CIPHER.D is CIPHER.E on the exchanged pair
is `exec_cipherD_eq_cipherE`. -/
theorem cipherDAnswersTheDecryptedBlock : Obligations.CipherDAnswersTheDecryptedBlock := by
  refine ⟨fun s key1 key2 block hw h1 h2 hb => ?_, fun w hsel => ?_,
    fun _ _ _ hw hq hop hr => step_of_decode_error hw hq (decode_of_reservedC hop hr),
    fun s key1 key2 block => exec_cipherD_eq_cipherE key1 key2 block s,
    by decide, fun _ hs => exec_of_defaultTables hs (by decide)⟩
  · obtain ⟨v, hv, steps, hout⟩ := cipher_answers_steps hw hb h1 h2 .decrypt
    obtain ⟨hA, hB⟩ := Prod.mk.inj steps.keys
    exact ⟨v, hv, hout, hA, hB, by simpa using exec_cipherD_of_cipher hv⟩
  · obtain ⟨key1, key2, block, h1, h2, hb, hd⟩ := decode_of_selects_cipherD (selects_iff.mpr hsel)
    exact ⟨key1, key2, block, h1, h2, hb, fromInteger_length h1, fromInteger_length h2,
      fromInteger_length hb, hd⟩

/-! ### ENCRYPT and DECRYPT -/

section
variable {s : State} (hw : tablesWellFormed s.rom = true)
include hw

/-- In each mode the key schedule's pair makes a cipher that answers a block, and the other mode on the
same pair leads it back. -/
theorem keyed_cipher_roundTrip {key block : BitVector} (hk : key.length = 10) (hb : block.length = 8)
    (mode : Mode) :
    ∃ ks v d, keySchedule s.rom key = .ok ks ∧ cipher s.rom block ks.key1 ks.key2 mode = .ok v ∧
      v.out.length = 8 ∧ cipher s.rom v.out ks.key1 ks.key2 (oppositeMode mode) = .ok d ∧
      d.out = block := by
  obtain ⟨ks, hks, h1, h2⟩ := keySchedule_answers hw hk
  obtain ⟨v, d, hv, hout, hd, hdb⟩ := cipher_roundTrip hw hb h1 h2 mode
  exact ⟨ks, v, d, hks, hv, hout, hd, hdb⟩

/-- Under one key, blocks with one ENCRYPT response are one block. -/
theorem exec_encrypt_inj {key b b' : BitVector} (hk : key.length = 10) (hb : b.length = 8)
    (hb' : b'.length = 8) (heq : exec (.encrypt key b) s = exec (.encrypt key b') s) : b = b' := by
  obtain ⟨ks, hks, h1, h2⟩ := keySchedule_answers hw hk
  obtain ⟨v, hv, hout⟩ := cipher_answers hw hb h1 h2 .encrypt
  obtain ⟨v', hv', hout'⟩ := cipher_answers hw hb' h1 h2 .encrypt
  rw [exec_encrypt_eq_cipherE hks, exec_encrypt_eq_cipherE hks, exec_cipherE_of_cipher hv,
    exec_cipherE_of_cipher hv'] at heq
  exact cipher_out_inj hw hv hv' hb hb' (ofNat_toInteger_inj hout hout' (by simpa using heq))

end

/-- Settles O15: ENCRYPT is CIPHER.E on the key schedule's pair; a block is reached from the one that
decrypt mode gives it (`keyed_cipher_roundTrip`), and from no other (`exec_encrypt_inj`). -/
theorem encryptAnswersTheEncryptedBlock : Obligations.EncryptAnswersTheEncryptedBlock := by
  refine ⟨fun s key block hw hk hb => ?_, fun w hsel => ?_,
    fun _ _ _ hw hq hop hr => step_of_decode_error hw hq (decode_of_reservedB hop hr),
    fun s key out hw hk hout => ?_,
    by decide, fun _ hs => exec_of_defaultTables hs (by decide)⟩
  · obtain ⟨ks, v, -, hks, hv, hout, -, -⟩ := keyed_cipher_roundTrip hw hk hb .encrypt
    have hexec := exec_encrypt_eq_cipherE (block := block) hks
    exact ⟨ks, v, hks, hv, hout, by simpa using hexec.trans (exec_cipherE_of_cipher hv), hexec⟩
  · obtain ⟨key, block, hk, hb, hd⟩ := decode_of_selects_encrypt (selects_iff.mpr hsel)
    exact ⟨key, block, hk, hb, fromInteger_length hk, fromInteger_length hb, hd⟩
  · obtain ⟨ks, v, d, hks, -, hvl, hd, rfl⟩ := keyed_cipher_roundTrip hw hk hout .decrypt
    exact ⟨v.out, hvl, (exec_encrypt_eq_cipherE hks).trans (exec_cipherE_of_cipher hd),
      fun block' hb' heq => exec_encrypt_inj hw hk hb' hvl heq⟩

/-- Settles O16: ENCRYPT and DECRYPT are the two modes of the cipher on one pair, and each mode leads back
what the other gives (`keyed_cipher_roundTrip`). -/
theorem decryptUndoesEncrypt : Obligations.DecryptUndoesEncrypt := by
  refine ⟨fun s key block hw hk hb => ?_, fun s key block hw hk hb => ?_, fun w hsel => ?_,
    fun _ _ _ hw hq hop hr => step_of_decode_error hw hq (decode_of_reservedB hop hr),
    by decide, fun _ hs => exec_of_defaultTables hs (by decide)⟩
  · obtain ⟨ks, v, d, hks, hv, hout, hd, rfl⟩ := keyed_cipher_roundTrip hw hk hb .decrypt
    exact ⟨ks, v, hks, hv, hout,
      by simpa using (exec_decrypt_eq_cipherD hks).trans (exec_cipherD_of_cipher hv),
      (exec_encrypt_eq_cipherE hks).trans (exec_cipherE_of_cipher hd)⟩
  · obtain ⟨ks, v, d, hks, hv, hout, hd, rfl⟩ := keyed_cipher_roundTrip hw hk hb .encrypt
    exact ⟨v.out, hout, (exec_encrypt_eq_cipherE hks).trans (exec_cipherE_of_cipher hv),
      (exec_decrypt_eq_cipherD hks).trans (exec_cipherD_of_cipher hd)⟩
  · obtain ⟨key, block, hk, hb, hd⟩ := decode_of_selects_decrypt (selects_iff.mpr hsel)
    exact ⟨key, block, hk, hb, fromInteger_length hk, fromInteger_length hb, hd⟩

end Sys2Proof.Machine
end

section
/-! PROOFS. The text front end (`44_commands.md` R157; `30_encoding.md` R74 to R76). -/

namespace Sys2Proof.Machine

/-! ### One check each: an operand text, a mode text -/

/-- The text of a vector of the right length is accepted, as that vector. -/
theorem textOperand_toText {n : Nat} {v : BitVector} (h : v.length = n) :
    textOperand n (toText v) = .ok v := by
  rw [textOperand, parse_toText, Except_bind_ok, if_pos h]
  rfl

/-- Any other text is InvalidInput, for its first bad character or else for its length. -/
theorem textOperand_invalid {n : Nat} {text : Text} (h : ¬ ∃ v, v.length = n ∧ text = toText v) :
    ∃ info, textOperand n text = .error (.raise .invalidInput info) := by
  obtain ⟨v, rfl⟩ | ⟨v, c, rest, h0, h1, rfl⟩ := text_cases text
  · have hn : v.length ≠ n := fun hn => h ⟨v, hn, rfl⟩
    exact ⟨none, by rw [textOperand, parse_toText, Except_bind_ok, if_neg hn]⟩
  · exact ⟨some v.length, by rw [textOperand, parse_toText_bad v rest h0 h1, Except_bind_error]⟩

theorem textMode_unknown {text : Text} (he : text ≠ "encrypt".toList) (hd : text ≠ "decrypt".toList) :
    textMode text = .error (.raise .unknownMode none) := by
  rw [textMode, if_neg he, if_neg hd]

/-! ### The checks in order: key, block, mode -/

section
variable {k b : BitVector} (hk : k.length = 10) (hb : b.length = 8)

theorem frontEndRequest_of_bad_key {keyText : Text} (blockText modeText : Option Text)
    (h : ¬ ∃ k, k.length = 10 ∧ keyText = toText k) :
    ∃ info, frontEndRequest (some keyText) blockText modeText = .error (.raise .invalidInput info) := by
  obtain ⟨info, hinfo⟩ := textOperand_invalid h
  exact ⟨info, by rw [frontEndRequest, Option.getD_some, hinfo, Except_bind_error]⟩

include hk

theorem frontEndRequest_of_bad_block {blockText : Text} (modeText : Option Text)
    (h : ¬ ∃ b, b.length = 8 ∧ blockText = toText b) :
    ∃ info, frontEndRequest (some (toText k)) (some blockText) modeText
      = .error (.raise .invalidInput info) := by
  obtain ⟨info, hinfo⟩ := textOperand_invalid h
  exact ⟨info, by rw [frontEndRequest, Option.getD_some, Option.getD_some, textOperand_toText hk,
    Except_bind_ok, hinfo, Except_bind_error]⟩

include hb

/-- With an accepted key and block the mode text alone decides. -/
theorem frontEndRequest_of_operands (modeText : Text) :
    frontEndRequest (some (toText k)) (some (toText b)) (some modeText)
      = (textMode modeText).map fun m => wordB m k b := by
  rw [frontEndRequest, Option.getD_some, Option.getD_some, Option.getD_some, textOperand_toText hk,
    textOperand_toText hb, Except_bind_ok, Except_bind_ok]
  cases textMode modeText <;> rfl

end

/-! ### The front end in use -/

section
variable {s : State} {keyText blockText modeText : Option Text}

/-- A failed check is the response, and the waiting requests stay (R157; log 10). -/
theorem frontEndCall_of_error {kind : ErrorKind} {info : Option Nat}
    (h : frontEndRequest keyText blockText modeText = .error (.raise kind info)) :
    frontEndCall keyText blockText modeText s =
      .next { s with responses := s.responses ++ [errorResponse kind] } := by
  rw [frontEndCall, h]
  rfl

/-- A built request is answered by the engine at once, ahead of the waiting ones (R157; log 10). -/
theorem frontEndCall_of_request {req rsp : Word} (hw : tablesWellFormed s.rom = true)
    (h : frontEndRequest keyText blockText modeText = .ok req) (he : engine s.rom req = some rsp) :
    frontEndCall keyText blockText modeText s =
      .next { s with responses := s.responses ++ [rsp] } := by
  rw [frontEndCall, h]
  exact step_of_request hw rfl he

/-- Every built request has the engine's response. -/
theorem frontEndCall_answers {req : Word} (hw : tablesWellFormed s.rom = true)
    (h : frontEndRequest keyText blockText modeText = .ok req) :
    ∃ rsp, engine s.rom req = some rsp ∧ frontEndCall keyText blockText modeText s =
      .next { s with responses := s.responses ++ [rsp] } := by
  obtain ⟨rsp, he⟩ := engine_answers hw req
  exact ⟨rsp, he, frontEndCall_of_request hw h he⟩

/-- The examples: the front end over the default contents (log 2). -/
theorem frontEndCall_of_defaultTables {req rsp : Word} (hs : s.rom = defaultTables)
    (h : frontEndRequest keyText blockText modeText = .ok req)
    (he : engine defaultTables req = some rsp) :
    frontEndCall keyText blockText modeText s =
      .next { s with responses := s.responses ++ [rsp] } :=
  frontEndCall_of_request (hs ▸ by decide) h (hs ▸ he)

/-- An omitted operand is its default (R75). -/
theorem frontEndRequest_defaults (keyText blockText modeText : Option Text) :
    frontEndRequest keyText blockText modeText
      = frontEndRequest (some (keyText.getD defaultKeyText)) (some (blockText.getD defaultBlockText))
          (some (modeText.getD defaultModeText)) := rfl

end

/-- Settles O35: the request is the first check that fails, or the word the three texts build
(`frontEndRequest_of_bad_key` and the two after it), and the call answers either at once. -/
theorem frontEndChecksKeyThenBlockThenMode : Obligations.FrontEndChecksKeyThenBlockThenMode := by
  refine ⟨fun s k b hw hk hb => ?_, fun s keyText blockText modeText h => ?_,
    fun s k blockText modeText hk h => ?_, fun s k b modeText hk hb he hd => ?_,
    fun s keyText blockText modeText => ?_, by decide, by decide, fun s hs => ?_⟩
  · exact ⟨frontEndCall_answers hw (frontEndRequest_of_operands hk hb _),
      frontEndCall_answers hw (frontEndRequest_of_operands hk hb _)⟩
  · obtain ⟨info, hinfo⟩ := frontEndRequest_of_bad_key blockText modeText h
    exact frontEndCall_of_error hinfo
  · obtain ⟨info, hinfo⟩ := frontEndRequest_of_bad_block hk modeText h
    exact frontEndCall_of_error hinfo
  · have hmode := frontEndRequest_of_operands hk hb modeText
    rw [textMode_unknown he hd] at hmode
    exact frontEndCall_of_error hmode
  · rw [frontEndCall, frontEndCall, frontEndRequest_defaults]
    rfl
  · exact ⟨frontEndCall_of_defaultTables (req := 0xCA080400#32) hs (by decide) (by decide),
      frontEndCall_of_defaultTables (req := 0xC0000000#32) hs (by decide) (by decide)⟩

end Sys2Proof.Machine
end

section
/-! PROOFS. Encoding and decoding undo each other, through the fields that a request word of an operation
holds (`30_encoding.md` R61 to R64, section 4). -/

namespace Sys2Proof

open Machine

/-- The fields of a request word of an operation: its format, its mode, clear reserved bits and its
operands (R61 to R64). -/
def HoldsOperation (w : Word) : Instr → Prop
  | .keygen key =>
    opField w = 1 ∧ modeField w = 0 ∧ reservedK w = 0 ∧ field w 27 18 = toInteger key
  | .cipherE key1 key2 block =>
    opField w = 2 ∧ modeField w = 0 ∧ reservedC w = 0 ∧ field w 27 20 = toInteger key1 ∧
      field w 19 12 = toInteger key2 ∧ field w 11 4 = toInteger block
  | .cipherD key1 key2 block =>
    opField w = 2 ∧ modeField w = 1 ∧ reservedC w = 0 ∧ field w 27 20 = toInteger key1 ∧
      field w 19 12 = toInteger key2 ∧ field w 11 4 = toInteger block
  | .encrypt key block =>
    opField w = 3 ∧ modeField w = 0 ∧ reservedB w = 0 ∧ field w 27 18 = toInteger key ∧
      field w 17 10 = toInteger block
  | .decrypt key block =>
    opField w = 3 ∧ modeField w = 1 ∧ reservedB w = 0 ∧ field w 27 18 = toInteger key ∧
      field w 17 10 = toInteger block

/-- The encoder puts an operation into the fields of its format. -/
theorem encode_holdsOperation {i : Instr} (hi : i.wf = true) : HoldsOperation (encode i) i := by
  cases i with
  | keygen key => exact Laws.EncodedFields.keygen key hi
  | cipherE key1 key2 block => exact Laws.EncodedFields.cipherE key1 key2 block hi
  | cipherD key1 key2 block => exact Laws.EncodedFields.cipherD key1 key2 block hi
  | encrypt key block => exact Laws.EncodedFields.encrypt key block hi
  | decrypt key block => exact Laws.EncodedFields.decrypt key block hi

/-- The fields of a format make up the whole word, so an operation has one request word. -/
theorem HoldsOperation.word_unique {w w' : Word} {i : Instr} (h : HoldsOperation w i)
    (h' : HoldsOperation w' i) : w = w' := by
  have hw := w.isLt
  have hw' := w'.isLt
  refine BitVec.eq_of_toNat_eq ?_
  cases i with
  | keygen =>
    simp only [HoldsOperation, opField, modeField, reservedK, field_eq] at h h'
    omega
  | cipherE | cipherD =>
    simp only [HoldsOperation, opField, modeField, reservedC, field_eq] at h h'
    omega
  | encrypt | decrypt =>
    simp only [HoldsOperation, opField, modeField, reservedB, field_eq] at h h'
    omega

/-- A field with a vector's value yields that vector (R67). -/
theorem operand_eq {w : Word} {hi lo n : Nat} {u v : BitVector} (hv : v.length = n)
    (hf : field w hi lo = toInteger v) (hu : fromInteger (field w hi lo) n = .ok u) : u = v := by
  rw [hf, fromInteger_toInteger hv] at hu
  exact (Except.ok.inj hu).symm

/-- A word with the fields of a well-formed operation decodes to it. -/
theorem HoldsOperation.decode_eq {w : Word} {i : Instr} (h : HoldsOperation w i)
    (hi : i.wf = true) : decode w = .ok i := by
  cases i with
  | keygen key =>
    simp only [Instr.wf, isKey, beq_iff_eq] at hi
    obtain ⟨hop, hm, hr, hkey⟩ := h
    obtain ⟨key', ekey, hd⟩ := decode_formatK hop hm hr
    rwa [operand_eq hi hkey ekey] at hd
  | cipherE key1 key2 block | cipherD key1 key2 block =>
    simp only [Instr.wf, isSubkey, isBlock, Bool.and_eq_true, beq_iff_eq] at hi
    obtain ⟨⟨h1, h2⟩, hb⟩ := hi
    obtain ⟨hop, hm, hr, hkey1, hkey2, hblock⟩ := h
    obtain ⟨key1', key2', block', e1, e2, eb, hd⟩ := decode_formatC hop (by omega) hr
    simpa [hm, operand_eq h1 hkey1 e1, operand_eq h2 hkey2 e2, operand_eq hb hblock eb] using hd
  | encrypt key block | decrypt key block =>
    simp only [Instr.wf, isKey, isBlock, Bool.and_eq_true, beq_iff_eq] at hi
    obtain ⟨hk, hb⟩ := hi
    obtain ⟨hop, hm, hr, hkey, hblock⟩ := h
    obtain ⟨key', block', ek, eb, hd⟩ := decode_formatB hop (by omega) hr
    simpa [hm, operand_eq hk hkey ek, operand_eq hb hblock eb] using hd

/-- Settles O2: the encoder puts the operation into the fields of its format
(`encode_holdsOperation`), from which the decoder reads it (`HoldsOperation.decode_eq`). -/
theorem decodeOfEncodeIsTheOperation : Obligations.DecodeOfEncodeIsTheOperation :=
  fun _ hi => (encode_holdsOperation hi).decode_eq hi

/-- An operand field has the value of the vector it yields (R67). -/
theorem field_eq_toInteger {w : Word} {hi lo n : Nat} {v : BitVector}
    (h : fromInteger (field w hi lo) n = .ok v) : field w hi lo = toInteger v :=
  (fromInteger_inv h).2.2.symm

/-- A word that decodes to an operation has that operation's fields. -/
theorem holdsOperation_of_decode {w : Word} {i : Instr} (h : decode w = .ok i) :
    HoldsOperation w i := by
  have hsel := selects_of_decode h
  cases i with
  | keygen key =>
    obtain ⟨hop, hm, hr⟩ := (selects_keygen_iff w).mp hsel
    obtain ⟨key', ekey, hd⟩ := decode_of_selects_keygen hsel
    cases h.symm.trans hd
    exact ⟨hop, hm, hr, field_eq_toInteger ekey⟩
  | cipherE key1 key2 block =>
    obtain ⟨hop, hm, hr⟩ := (selects_cipherE_iff w).mp hsel
    obtain ⟨key1', key2', block', e1, e2, eb, hd⟩ := decode_of_selects_cipherE hsel
    cases h.symm.trans hd
    exact ⟨hop, hm, hr, field_eq_toInteger e1, field_eq_toInteger e2, field_eq_toInteger eb⟩
  | cipherD key1 key2 block =>
    obtain ⟨hop, hm, hr⟩ := (selects_cipherD_iff w).mp hsel
    obtain ⟨key1', key2', block', e1, e2, eb, hd⟩ := decode_of_selects_cipherD hsel
    cases h.symm.trans hd
    exact ⟨hop, hm, hr, field_eq_toInteger e1, field_eq_toInteger e2, field_eq_toInteger eb⟩
  | encrypt key block =>
    obtain ⟨hop, hm, hr⟩ := (selects_encrypt_iff w).mp hsel
    obtain ⟨key', block', ek, eb, hd⟩ := decode_of_selects_encrypt hsel
    cases h.symm.trans hd
    exact ⟨hop, hm, hr, field_eq_toInteger ek, field_eq_toInteger eb⟩
  | decrypt key block =>
    obtain ⟨hop, hm, hr⟩ := (selects_decrypt_iff w).mp hsel
    obtain ⟨key', block', ek, eb, hd⟩ := decode_of_selects_decrypt hsel
    cases h.symm.trans hd
    exact ⟨hop, hm, hr, field_eq_toInteger ek, field_eq_toInteger eb⟩

/-- Settles O3: a word that decodes to an operation has its fields (`holdsOperation_of_decode`), as the
operation's encoding has, and the fields fix the word. -/
theorem encodeOfDecodeIsTheWord : Obligations.EncodeOfDecodeIsTheWord := by
  intro w i h
  have hi := decode_wf h
  exact ⟨(encode_holdsOperation hi).word_unique (holdsOperation_of_decode h), hi⟩

/-- Settles O1: five closed words, decoded. -/
theorem wordsOfEveryRowDecode : Obligations.WordsOfEveryRowDecode := by
  refine ⟨?_, ?_, ?_, ?_, ?_⟩ <;> decide

end Sys2Proof
end

section
/-! PROOFS. The invariant, the statuses that occur and what a rejected request leaves behind
(`60_exceptions.md` R178 to R181; `10_state.md` section 3). -/

namespace Sys2Proof.Machine

open Safety

/-! ### The engine's responses -/

/-- The engine gives every word a response with status OK, IllegalRequest or UnknownMode. -/
theorem engine_cases {t : Tables} {w rsp : Word} (h : tablesWellFormed t = true)
    (he : engine t w = some rsp) :
    rsp = errorResponse .illegalRequest ∨ rsp = errorResponse .unknownMode ∨
      ∃ hi lo : BitVector, hi.length ≤ 8 ∧ lo.length ≤ 8 ∧ rsp = response statusOk hi lo := by
  rw [engine, if_pos h] at he
  obtain hr | hr | ⟨hi, lo, hhi, hlo, hr⟩ := engineResult_cases h w
  · rw [hr] at he
    exact .inl (Option.some.inj he).symm
  · rw [hr] at he
    exact .inr (.inl (Option.some.inj he).symm)
  · rw [hr] at he
    exact .inr (.inr ⟨hi, lo, hhi, hlo, (Option.some.inj he).symm⟩)

/-- A word that decodes to an operation gets a response with status OK (R178). -/
theorem engine_status_of_decode_ok {t : Tables} {w rsp : Word} {i : Instr}
    (h : tablesWellFormed t = true) (hd : decode w = .ok i) (he : engine t w = some rsp) :
    statusField rsp = 0 := by
  obtain ⟨hi, lo, hhi, hlo, hr⟩ := operationResponse_answers h (decode_wf hd)
  rw [engine, if_pos h, engineResult, hd, Except_bind_ok, hr] at he
  cases he
  exact (response_fields (by decide) hhi hlo).1

/-- An OK response is legal. -/
theorem legalResponse_ok {hi lo : BitVector} (hhi : hi.length ≤ 8) (hlo : lo.length ≤ 8) :
    legalResponse (response statusOk hi lo) = true := by
  obtain ⟨hs, hz, -⟩ := response_fields (status := statusOk) (by decide) hhi hlo
  have hs : statusField (response statusOk hi lo) = 0 := hs
  simp [legalResponse, hs, hz]

/-- The error response of a kind whose code can occur is legal (R178). -/
theorem legalResponse_error {kind : ErrorKind}
    (h : kind = .invalidInput ∨ kind = .unknownMode ∨ kind = .illegalRequest) :
    legalResponse (errorResponse kind) = true := by
  obtain rfl | rfl | rfl := h <;> decide

theorem legalResponse_of_engine {t : Tables} {w rsp : Word} (h : tablesWellFormed t = true)
    (he : engine t w = some rsp) : legalResponse rsp = true := by
  obtain rfl | rfl | ⟨hi, lo, hhi, hlo, rfl⟩ := engine_cases h he
  · exact legalResponse_error (by simp)
  · exact legalResponse_error (by simp)
  · exact legalResponse_ok hhi hlo

/-! ### The front end's responses -/

/-- A mode text is one of the two modes', or UnknownMode. -/
theorem textMode_cases (text : Text) :
    textMode text = .ok 0 ∨ textMode text = .ok 1 ∨
      textMode text = .error (.raise .unknownMode none) := by
  by_cases he : text = "encrypt".toList
  · exact .inl (if_pos he)
  by_cases hd : text = "decrypt".toList
  · exact .inr (.inl ((if_neg he).trans (if_pos hd)))
  · exact .inr (.inr (textMode_unknown he hd))

/-- The front end builds the request word of a well-formed operation, or a check fails with InvalidInput or
UnknownMode. -/
theorem frontEndRequest_cases (keyText blockText modeText : Option Text) :
    (∃ i : Instr, i.wf = true ∧ frontEndRequest keyText blockText modeText = .ok (encode i)) ∨
      ∃ kind info, (kind = .invalidInput ∨ kind = .unknownMode) ∧
        frontEndRequest keyText blockText modeText = .error (.raise kind info) := by
  rw [frontEndRequest_defaults]
  by_cases hkey : ∃ k, k.length = 10 ∧ keyText.getD defaultKeyText = toText k
  case neg =>
    obtain ⟨info, h⟩ := frontEndRequest_of_bad_key _ _ hkey
    exact .inr ⟨_, info, .inl rfl, h⟩
  obtain ⟨k, hk, hkt⟩ := hkey
  rw [hkt]
  by_cases hblock : ∃ b, b.length = 8 ∧ blockText.getD defaultBlockText = toText b
  case neg =>
    obtain ⟨info, h⟩ := frontEndRequest_of_bad_block hk _ hblock
    exact .inr ⟨_, info, .inl rfl, h⟩
  obtain ⟨b, hb, hbt⟩ := hblock
  rw [hbt, frontEndRequest_of_operands hk hb]
  obtain hm | hm | hm := textMode_cases (modeText.getD defaultModeText) <;> rw [hm]
  · exact .inl ⟨.encrypt k b, by simp [Instr.wf, isKey, isBlock, hk, hb], rfl⟩
  · exact .inl ⟨.decrypt k b, by simp [Instr.wf, isKey, isBlock, hk, hb], rfl⟩
  · exact .inr ⟨_, none, .inr rfl, rfl⟩

/-- Every use of the front end adds one response: the engine's to the request word of an operation, or
that of the check that failed. -/
theorem frontEndCall_cases {s : State} (hw : tablesWellFormed s.rom = true)
    (keyText blockText modeText : Option Text) :
    ∃ rsp, frontEndCall keyText blockText modeText s
        = .next { s with responses := s.responses ++ [rsp] } ∧
      ((∃ i : Instr, i.wf = true ∧ engine s.rom (encode i) = some rsp) ∨
        rsp = errorResponse .invalidInput ∨ rsp = errorResponse .unknownMode) := by
  obtain ⟨i, hi, h⟩ | ⟨kind, info, hkind, h⟩ := frontEndRequest_cases keyText blockText modeText
  · obtain ⟨rsp, he, hcall⟩ := frontEndCall_answers hw h
    exact ⟨rsp, hcall, .inl ⟨i, hi, he⟩⟩
  · refine ⟨_, frontEndCall_of_error h, .inr ?_⟩
    obtain rfl | rfl := hkind
    · exact .inl rfl
    · exact .inr rfl

/-! ### The invariant -/

/-- One legal response more keeps the invariant, whatever becomes of the words to come. -/
theorem inv_add_response {s : State} {rsp : Word} (h : Inv s) (hrsp : legalResponse rsp = true)
    (requests : List Word) :
    Inv { s with requests := requests, responses := s.responses ++ [rsp] } := by
  obtain ⟨hw, hall⟩ := h
  refine ⟨hw, fun r hr => ?_⟩
  obtain hr | hr := List.mem_append.mp hr
  · exact hall r hr
  · rwa [List.mem_singleton.mp hr]

/-- Settles O45: a step and a use of the front end change nothing, or add one response, the engine's
(`legalResponse_of_engine`) or that of a failed check (`legalResponse_error`). -/
theorem stepKeepsInv : Obligations.StepKeepsInv := by
  refine ⟨fun s t hinv hstep => ?_, fun s t keyText blockText modeText hinv hcall => ?_⟩
  · obtain ⟨hw, ⟨-, rfl⟩ | ⟨w, rest, rsp, -, he, rfl⟩⟩ := step_next hstep
    · exact hinv
    · exact inv_add_response hinv (legalResponse_of_engine hw he) rest
  · obtain ⟨rsp, hcall', hrsp⟩ := frontEndCall_cases hinv.1 keyText blockText modeText
    obtain rfl : _ = t := Host.Outcome.next.inj (hcall'.symm.trans hcall)
    refine inv_add_response hinv ?_ s.requests
    obtain ⟨i, -, he⟩ | rfl | rfl := hrsp
    · exact legalResponse_of_engine hinv.1 he
    · exact legalResponse_error (by simp)
    · exact legalResponse_error (by simp)

/-- Settles O34: the engine's statuses (`engine_status`), OK once the word decodes; a request the front end
builds decodes, since it encodes an operation. -/
theorem statusesThatOccur : Obligations.StatusesThatOccur := by
  refine ⟨fun s w rest hw hq => ?_, fun s keyText blockText modeText hw => ?_⟩
  · obtain ⟨rsp, he⟩ := engine_answers hw w
    exact ⟨rsp, step_of_request hw hq he, engine_status hw he,
      fun _ hd => engine_status_of_decode_ok hw hd he⟩
  · obtain ⟨rsp, hcall, hrsp⟩ := frontEndCall_cases hw keyText blockText modeText
    refine ⟨rsp, hcall, ?_⟩
    obtain ⟨i, hi, he⟩ | rfl | rfl := hrsp
    · exact .inl (engine_status_of_decode_ok hw (decodeOfEncodeIsTheOperation i hi) he)
    · exact .inr (.inl (statusField_errorResponse _))
    · exact .inr (.inr (statusField_errorResponse _))

/-- Settles O24: a closed check of the default contents (log 2). -/
theorem defaultTablesAreWellFormed : Obligations.DefaultTablesAreWellFormed := by
  unfold Obligations.DefaultTablesAreWellFormed
  decide

/-- Settles O44: the default contents make an engine, and no response has been received. -/
theorem invHoldsAtReset : Obligations.InvHoldsAtReset :=
  ⟨defaultTablesAreWellFormed, fun _ hr => absurd hr List.not_mem_nil⟩

/-- Settles O42: each field of the reset state as `State.reset` gives it. -/
theorem resetHoldsTheRomAndNothingElse : Obligations.ResetHoldsTheRomAndNothingElse :=
  ⟨reset_rom, defaultTablesAreWellFormed, reset_responses, reset_requests⟩

end Sys2Proof.Machine
end

section
/-! PROOFS. Requests are answered one by one: idle steps, ill-formed contents, the frame of the operations,
rejected requests, their order, reset (`10_state.md` sections 1 to 3; `20_memory.md` section 4;
`60_exceptions.md` section 2; `70_reset_and_hazards.md` section 1). -/

namespace Sys2Proof.Machine

/-- Settles O9: with no request `serve` answers the same state (log 4). -/
theorem idleStepChangesNothing : Obligations.IdleStepChangesNothing :=
  fun _ hw hq => step_of_idle hw hq

/-- Settles O10: both the step and the engine function ask for well-formed contents first (log 1). -/
theorem illFormedTablesAreRefused : Obligations.IllFormedTablesAreRefused := by
  intro s h
  have hw : ¬ tablesWellFormed s.rom = true := by simp [h]
  exact ⟨if_neg hw, fun _ => if_neg hw⟩

/-- Settles O11: every operation ends by `finish`, which adds one response (`finish_next`). -/
theorem operationsOnlyAddOneResponse : Obligations.OperationsOnlyAddOneResponse := by
  intro i s t h
  rw [exec_eq_finish] at h
  obtain ⟨rsp, -, rfl⟩ := finish_next h
  exact ⟨respond_rom s rsp, fun _ _ => rfl, fun _ _ _ => rfl, respond_requests s rsp,
    rsp, respond_responses s rsp⟩

/-- Two steps answer the next two requests, each with the engine's response. -/
theorem run_two_requests {s : State} {w w' rsp rsp' : Word} {rest : List Word}
    (hw : tablesWellFormed s.rom = true) (hq : s.requests = w :: w' :: rest)
    (he : engine s.rom w = some rsp) (he' : engine s.rom w' = some rsp') :
    Host.Core.run core 2 s
      = .next { s with requests := rest, responses := s.responses ++ [rsp, rsp'] } := by
  have second := step_of_request
    (s := { s with requests := w' :: rest, responses := s.responses ++ [rsp] }) hw rfl he'
  rw [List.append_assoc, List.singleton_append] at second
  exact (run_of_step (step_of_request hw hq he) 1).trans (run_of_step second 0)

/-- The engine answers a word the decoder rejects with the response of the decoder's error. -/
theorem engine_of_decode_error {t : Tables} {w : Word} {stop : Stop}
    (h : tablesWellFormed t = true) (hd : decode w = .error stop) :
    ∃ kind, engine t w = some (errorResponse kind) := by
  obtain hd' | hd' | ⟨i, hd', -⟩ := decode_cases w
  · exact ⟨.illegalRequest, by rw [engine, if_pos h, engineResult, hd']; rfl⟩
  · exact ⟨.unknownMode, by rw [engine, if_pos h, engineResult, hd']; rfl⟩
  · rw [hd] at hd'
    cases hd'

theorem statusCode_ne_zero (kind : ErrorKind) : statusCode kind ≠ 0 := by cases kind <;> decide

/-- Settles O36: the rejected word's response is an error response, and the next word's is the engine's,
which reads the ROM alone. -/
theorem errorsLeaveNoTrace : Obligations.ErrorsLeaveNoTrace := by
  intro s w w' rest stop hw hq hd
  obtain ⟨kind, he⟩ := engine_of_decode_error hw hd
  obtain ⟨rsp, he'⟩ := engine_answers hw w'
  exact ⟨errorResponse kind, rsp, by rw [statusField_errorResponse]; exact statusCode_ne_zero kind,
    field_errorResponse_low kind, step_of_request hw hq he, run_two_requests hw hq he he',
    step_of_request (s := { s with requests := w' :: rest }) hw rfl he'⟩

/-- Settles O38: the response is the engine's, in both states that of one ROM and one word. -/
theorem responseDependsOnRequestAndTablesOnly : Obligations.ResponseDependsOnRequestAndTablesOnly := by
  intro s s' w rest rest' hw hrom hq hq'
  obtain ⟨rsp, he⟩ := engine_answers hw w
  exact ⟨rsp, step_of_request hw hq he, step_of_request (hrom ▸ hw) hq' (hrom ▸ he)⟩

/-- Settles O40: in either order each word gets the engine's response to it (`run_two_requests`). -/
theorem swappedRequestsGetSwappedResponses : Obligations.SwappedRequestsGetSwappedResponses := by
  intro s w w' rest hw hq
  obtain ⟨rsp, he⟩ := engine_answers hw w
  obtain ⟨rsp', he'⟩ := engine_answers hw w'
  exact ⟨rsp, rsp', run_two_requests hw hq he he',
    run_two_requests (s := { s with requests := w' :: w :: rest }) hw rfl he' he⟩

/-- Every instance is idle after reset (R190). -/
theorem reset_port_idle {p : Port} (hp : p ∈ Fabric.reset.ports) :
    p.requests = [] ∧ p.responses = [] := by
  obtain rfl : p = State.reset.toPort := List.eq_of_mem_replicate hp
  exact ⟨reset_requests, reset_responses⟩

/-- Settles O43: reset keeps the ROM, on which alone the engine's response to a word depends
(`step_of_request`), and leaves both lists empty (logs 3 and 11). -/
theorem firstRequestAfterResetIsAnsweredAsAnyOther :
    Obligations.FirstRequestAfterResetIsAnsweredAsAnyOther := by
  refine ⟨fun s w hw => ?_, fun _ => reset_port_idle⟩
  obtain ⟨rsp, he⟩ := engine_answers hw w
  exact ⟨applyReset_rom s, applyReset_requests s, applyReset_responses s, rsp, he,
    step_of_request (s := s.applyReset.submit w) hw rfl he,
    fun s' rest hrom hq => step_of_request (hrom ▸ hw) hq (hrom ▸ he)⟩

end Sys2Proof.Machine
end

section
/-! PROOFS. The round trip of the cipher and the keys whose round keys are equal (`43_feistel.md` R144,
R145). -/

namespace Sys2Proof.Machine

theorem oppositeMode_oppositeMode (mode : Mode) : oppositeMode (oppositeMode mode) = mode := by
  cases mode <;> rfl

/-- Settles O32: each mode leads back what the other gives (`cipher_roundTrip`), so a block is the output of
the one that the other mode gives for it, and of no other (`cipher_out_inj`). -/
theorem cipherRoundTrip : Obligations.CipherRoundTrip := by
  refine fun t h => ⟨fun key1 key2 b h1 h2 hb => ⟨?_, ?_⟩, fun key1 key2 mode h1 h2 =>
    ⟨fun b b' v v' hb hb' hv hv' => cipher_out_inj h hv hv' hb hb', fun c hc => ?_⟩,
    fun k b hk hb => ?_⟩
  · obtain ⟨c, d, hc, -, hd, hdb⟩ := cipher_roundTrip h hb h1 h2 .encrypt
    exact ⟨c, d, hc, hd, hdb⟩
  · obtain ⟨c, d, hc, -, hd, hdb⟩ := cipher_roundTrip h hb h1 h2 .decrypt
    exact ⟨c, d, hc, hd, hdb⟩
  · obtain ⟨v, d, -, hvl, hd, hdc⟩ := cipher_roundTrip h hc h1 h2 (oppositeMode mode)
    rw [oppositeMode_oppositeMode] at hd
    exact ⟨v.out, d, hvl, hd, hdc⟩
  · obtain ⟨ks, hks, h1, h2⟩ := keySchedule_answers h hk
    obtain ⟨c, d, hc, -, hd, hdb⟩ := cipher_roundTrip h hb h1 h2 .encrypt
    exact ⟨ks, c, d, hks, hc, hd, hdb⟩

/-- With equal round keys the mode, which selects their order, selects nothing (R145). -/
theorem cipher_equal_keys (t : Tables) (b key : BitVector) (mode mode' : Mode) :
    cipher t b key key mode = cipher t b key key mode' := by
  cases mode <;> cases mode' <;> rfl

/-- The 10-bit keys that are constant on the places 0, 5, 7, 8, 9, on 1, 2, 6 and on 3, 4: under the
default contents (log 2) the two round keys set these places equal (`equal_roundKeys_iff`). -/
def keyOfClasses (a b c : Bool) : BitVector := [a, b, b, c, c, a, b, a, a, a]

/-- The eight keys of section 2.3 are the keys constant on the three classes of places. -/
theorem mem_equal_round_key_list_iff (k : BitVector) :
    k ∈ [bits "0000000000", bits "0001100000", bits "0110001000", bits "0111101000",
        bits "1000010111", bits "1001110111", bits "1110011111", bits "1111111111"] ↔
      ∃ a b c, k = keyOfClasses a b c := by
  simp only [Bool.exists_bool, List.mem_cons, List.not_mem_nil, or_false, or_assoc]
  exact Iff.rfl

/-- The two round keys of the closed form (R127) agree exactly on these keys. -/
theorem equal_roundKeys_iff (k0 k1 k2 k3 k4 k5 k6 k7 k8 k9 : Bool) :
    [k0, k6, k8, k3, k7, k2, k9, k5] = [k7, k2, k5, k4, k9, k1, k8, k0] ↔
      ∃ a b c, [k0, k1, k2, k3, k4, k5, k6, k7, k8, k9] = keyOfClasses a b c := by
  constructor
  · intro h
    simp only [List.cons.injEq, and_true] at h
    obtain ⟨rfl, rfl, rfl, rfl, rfl, rfl, rfl, -⟩ := h
    exact ⟨_, _, _, rfl⟩
  · rintro ⟨a, b, c, h⟩
    simp only [keyOfClasses, List.cons.injEq, and_true] at h
    obtain ⟨rfl, rfl, rfl, rfl, rfl, rfl, rfl, rfl, rfl, rfl⟩ := h
    rfl

/-- Settles O33: with equal round keys the modes are one mapping (`cipher_equal_keys`), so the round trip is
its own inverse; the eight keys are read off the closed form of the key schedule. -/
theorem equalRoundKeysMakeTheModesEqual : Obligations.EqualRoundKeysMakeTheModesEqual := by
  refine ⟨fun t key b h hk hb => ?_, fun k hk => ?_⟩
  · obtain ⟨v, u, hv, -, hu, hub⟩ := cipher_roundTrip h hb hk hk .encrypt
    obtain ⟨hA, hB⟩ := Prod.mk.inj (cipher_eq_ok_iff.mp hv).keys
    rw [cipher_equal_keys t v.out key _ .encrypt] at hu
    exact ⟨v, u, hv, (cipher_equal_keys t b key _ _).trans hv, hA, hB, hu, hub⟩
  · match k, hk with
    | [k0, k1, k2, k3, k4, k5, k6, k7, k8, k9], _ =>
      refine ⟨_, keyScheduleClosedForm.1 k0 k1 k2 k3 k4 k5 k6 k7 k8 k9, ?_⟩
      rw [mem_equal_round_key_list_iff]
      exact equal_roundKeys_iff k0 k1 k2 k3 k4 k5 k6 k7 k8 k9

end Sys2Proof.Machine
end

section
/-! PROOFS. A written line reads back as its operation (`30_encoding.md` R73, section 5): its mnemonic, its
operands, and the line made of them. -/

namespace Sys2Proof.Machine

/-! ### The mnemonic -/

theorem opcodeOfText_mnemonicText (op : Opcode) : opcodeOfText (mnemonicText op) = some op := by
  cases op <;> decide

/-- A mnemonic starts no comment and holds no blank. -/
theorem mnemonicText_chars (op : Opcode) : ∀ c ∈ mnemonicText op, c ≠ ';' ∧ isBlank c = false := by
  have hall : ((mnemonicText op).all fun c => c != ';' && !isBlank c) = true := by
    cases op <;> decide
  intro c hc
  simpa using List.all_eq_true.mp hall c hc

theorem mnemonicText_ne_nil (op : Opcode) : mnemonicText op ≠ [] := by cases op <;> decide

/-! ### The operands -/

theorem toText_no_comment (v : BitVector) : ∀ c ∈ toText v, c ≠ ';' := by
  simp only [toText, List.forall_mem_map]
  intro b _
  cases b <;> decide

/-- The written operands start no comment. -/
theorem joinOperands_no_comment (vs : List BitVector) : ∀ c ∈ joinOperands vs, c ≠ ';' := by
  induction vs using joinOperands.induct with
  | case1 => simp [joinOperands]
  | case2 v => exact toText_no_comment v
  | case3 v w rest ih =>
    simp only [joinOperands, List.forall_mem_append, List.forall_mem_cons]
    exact ⟨toText_no_comment v, by decide, by decide, ih⟩

/-- The pieces between the commas of the written operands are their texts, each after one blank. -/
theorem splitAtCommas_joinOperands {vs : List BitVector} (h : vs ≠ []) :
    splitAtCommas (' ' :: joinOperands vs) = vs.map fun v => ' ' :: toText v := by
  induction vs using joinOperands.induct with
  | case1 => exact absurd rfl h
  | case2 v => simp [joinOperands, splitAtCommas, splitAtCommas_toText]
  | case3 v w rest ih =>
    have hrest := ih (List.cons_ne_nil w rest)
    rw [joinOperands, splitAtCommas, splitAtCommas_toText_comma, hrest]
    rfl

/-- A text that starts with no blank has something left between its blanks. -/
theorem trim_cons_ne_nil {c : Char} (hc : isBlank c = false) (rest : Text) :
    trim (c :: rest) ≠ [] := by
  intro h
  simp only [trim, List.dropWhile_cons, hc, Bool.false_eq_true, if_false, List.reverse_eq_nil_iff,
    List.dropWhile_eq_nil_iff, List.mem_reverse] at h
  exact absurd (h c List.mem_cons_self) (by simp [hc])

theorem trim_joinOperands_ne_nil {vs : List BitVector} (h : vs ≠ []) (hbits : ∀ v ∈ vs, v ≠ []) :
    trim (joinOperands vs) ≠ [] := by
  obtain _ | ⟨v, rest⟩ := vs
  · exact absurd rfl h
  obtain ⟨b, v, rfl⟩ := List.exists_cons_of_ne_nil (hbits v List.mem_cons_self)
  cases rest <;> exact trim_cons_ne_nil (bit_not_blank b) _

/-- The operand texts of a written line are the texts of its operands. -/
theorem operandTexts_joinOperands {vs : List BitVector} (h : vs ≠ []) (hbits : ∀ v ∈ vs, v ≠ []) :
    operandTexts (' ' :: joinOperands vs) = vs.map toText := by
  have htrim : trim (' ' :: joinOperands vs) ≠ [] := by
    rw [trim_blank_cons]
    exact trim_joinOperands_ne_nil h hbits
  rw [operandTexts, if_neg htrim, splitAtCommas_joinOperands h, List.map_map]
  refine List.map_congr_left fun v _ => ?_
  rw [Function.comp_apply, trim_blank_cons, trim_toText]

theorem operandBits_toText {n : Nat} {v : BitVector} (h : v.length = n) :
    operandBits n (toText v) = some v := by
  rw [operandBits, textOperand_toText h]

/-- The texts of operands of the lengths a row asks for are read as these operands, no default in
use. -/
theorem operandsOf_toText {forms : List (Nat × Option Text)} {vs : List BitVector}
    (h : List.Forall₂ (fun form v => v.length = form.1) forms vs) (hbits : ∀ v ∈ vs, v ≠ []) :
    operandsOf forms (vs.map toText) = some vs := by
  induction h with
  | nil => rfl
  | cons hlen _ ih =>
    obtain ⟨hv, hrest⟩ := List.forall_mem_cons.mp hbits
    simp [operandsOf, toText_eq_nil, hv, operandBits_toText hlen, ih hrest]

/-! ### The line -/

/-- The operands of a well-formed operation have the lengths its row asks for. -/
theorem operandList_lengths {i : Instr} (hi : i.wf = true) :
    List.Forall₂ (fun form v => v.length = form.1) (operandForms i.opcode) (operandList i) := by
  cases i <;>
    simpa [Instr.wf, isKey, isSubkey, isBlock, Instr.opcode, operandForms, operandList, and_assoc]
      using hi

theorem operandList_ne_nil (i : Instr) : operandList i ≠ [] := by
  cases i <;> exact List.cons_ne_nil _ _

theorem operandList_bits_ne_nil {i : Instr} (hi : i.wf = true) : ∀ v ∈ operandList i, v ≠ [] := by
  cases i <;>
    simp only [Instr.wf, isKey, isSubkey, isBlock, Bool.and_eq_true, beq_iff_eq] at hi <;>
    simp [operandList, ← List.length_pos_iff, hi]

theorem instrOf_operandList (i : Instr) : instrOf i.opcode (operandList i) = some i := by
  cases i <;> rfl

/-- A written line has no comment to take away. -/
theorem writeLine_no_comment (i : Instr) :
    ((writeLine i).takeWhile fun c => c != ';') = writeLine i := by
  simp only [List.takeWhile_eq_self_iff, bne_iff_ne, writeLine, List.forall_mem_append,
    List.forall_mem_cons]
  exact ⟨fun c hc => (mnemonicText_chars _ c hc).1, by decide, joinOperands_no_comment _⟩

/-- A written line has no blank in front. -/
theorem writeLine_no_blank_in_front (i : Instr) : (writeLine i).dropWhile isBlank = writeLine i := by
  obtain ⟨c, rest, hm⟩ := List.exists_cons_of_ne_nil (mnemonicText_ne_nil i.opcode)
  have hc : isBlank c = false := (mnemonicText_chars i.opcode c (hm ▸ List.mem_cons_self)).2
  simp [writeLine, hm, hc]

/-- The first blank of a written line parts its mnemonic from its operands. -/
theorem writeLine_parts (i : Instr) :
    ((writeLine i).takeWhile fun c => !isBlank c) = mnemonicText i.opcode ∧
      ((writeLine i).dropWhile fun c => !isBlank c) = ' ' :: joinOperands (operandList i) := by
  have hm : ∀ c ∈ mnemonicText i.opcode, (!isBlank c) = true := fun c hc => by
    rw [(mnemonicText_chars _ c hc).2, Bool.not_false]
  rw [writeLine, List.takeWhile_append_of_pos hm, List.dropWhile_append_of_pos hm]
  simp [isBlank]

/-- Reading a written line gives the operation back. -/
theorem readLine_writeLine {i : Instr} (hi : i.wf = true) : readLine (writeLine i) = some i := by
  obtain ⟨hmnemonic, hoperands⟩ := writeLine_parts i
  have hbits := operandList_bits_ne_nil hi
  simp only [readLine, writeLine_no_comment, writeLine_no_blank_in_front, hmnemonic, hoperands,
    opcodeOfText_mnemonicText, operandTexts_joinOperands (operandList_ne_nil i) hbits,
    operandsOf_toText (operandList_lengths hi) hbits]
  exact instrOf_operandList i

/-- Settles O37: the parts of a written line are its mnemonic and its operands' texts
(`writeLine_parts`), each of which reads back as what it was written for. -/
theorem writtenLinesAssembleToTheirWords : Obligations.WrittenLinesAssembleToTheirWords := by
  intro i hi
  have hread := readLine_writeLine hi
  exact ⟨hread, by rw [assemble, hread, Option.map_some]⟩

end Sys2Proof.Machine
end
